-- ==== Sys2Proof/Word.lean ====
section
/-! DEFINITION. The word types of the machine (00_scope.md R6, R14, R15). -/

namespace Sys2Proof

/-- A byte of memory, a general register, a timer, an immediate `NN` (R6, R15). -/
abbrev Byte := BitVec 8

/-- A 16-bit word: an instruction, the program counter, the index register, a stack slot (R6, R7). -/
abbrev Word := BitVec 16

/-- A register index, the `X` or `Y` field (R15); also the 4-bit target of the wait latch (R31). -/
abbrev RegIdx := BitVec 4

/-- A four-bit immediate or sub-opcode, the `N` field (R15). -/
abbrev Nibble := BitVec 4

/-- A twelve-bit address immediate, the `NNN` field (R15). -/
abbrev Imm12 := BitVec 12

end Sys2Proof
end

