-- ==== Sys2Proof/Config.lean ====
section
/-! DEFINITION. The parameters of 00_scope.md R5 to R11 at this hardware's values, the font constant of
10_state.md R39, and the one free value of the hardware, the draw of `RND`. -/

namespace Sys2Proof.Config

/-- `MEM_SIZE` (R5). -/
def memSize : Nat := 4096

/-- `STACK_DEPTH` (R7): 12 entries for this hardware. -/
abbrev stackDepth : Nat := 12

/-- `PROGRAM_ORIGIN` (R9). -/
def programOrigin : Nat := 0x200

/-- `DISPLAY_W` (R8). -/
def displayW : Nat := 64

/-- `DISPLAY_H` (R8). -/
def displayH : Nat := 32

/-- `FONT_BASE` (R10): 0x000 for this hardware. -/
def fontBase : Nat := 0x000

/-- `FONT_HEIGHT` (R10): bytes of one glyph. -/
def fontHeight : Nat := 5

/-- The length of the font table: `FONT_GLYPHS` = 16 glyphs of `FONT_HEIGHT` bytes (R10). -/
def fontSize : Nat := 80

/-- `QUIRK_FLAG_NOT_BORROW` (R11). -/
def quirkFlagNotBorrow : Bool := true

/-- `QUIRK_SHIFT_USES_VY` (R11). -/
def quirkShiftUsesVy : Bool := true

/-- `QUIRK_INDEX_ADVANCE` (R11). -/
def quirkIndexAdvance : Bool := false

/-- `RND_DEFINED` (41_arith_logic.md R152): whether `CXNN` is an instruction. -/
def rndDefined : Bool := true

/-- The 80 glyph bytes of 10_state.md R39, digit 0 first, top row first (UNVERIFIED: the spec takes them
from general knowledge, its item G1; log entry 3). -/
def font : List Byte :=
  [ 0xF0, 0x90, 0x90, 0x90, 0xF0,   -- 0
    0x20, 0x60, 0x20, 0x20, 0x70,   -- 1
    0xF0, 0x10, 0xF0, 0x80, 0xF0,   -- 2
    0xF0, 0x10, 0xF0, 0x10, 0xF0,   -- 3
    0x90, 0x90, 0xF0, 0x10, 0x10,   -- 4
    0xF0, 0x80, 0xF0, 0x10, 0xF0,   -- 5
    0xF0, 0x80, 0xF0, 0x90, 0xF0,   -- 6
    0xF0, 0x10, 0x20, 0x40, 0x40 ]  -- 7
  ++
  [ 0xF0, 0x90, 0xF0, 0x90, 0xF0,   -- 8
    0xF0, 0x90, 0xF0, 0x10, 0xF0,   -- 9
    0xF0, 0x90, 0xF0, 0x90, 0x90,   -- A
    0xE0, 0x90, 0xE0, 0x90, 0xE0,   -- B
    0xF0, 0x80, 0x80, 0x80, 0xF0,   -- C
    0xE0, 0x90, 0x90, 0x90, 0xE0,   -- D
    0xF0, 0x80, 0xF0, 0x80, 0xF0,   -- E
    0xF0, 0x80, 0xF0, 0x80, 0x80 ]  -- F

/-- The free 8-bit draw `draw8()` of `RND` (R152), the `k`-th of the machine's life: no body, so nothing can
be proved of its value (DESIGN CHOICE, safe; log entry 1). -/
opaque drawByte : Nat → Byte

end Sys2Proof.Config
end

