-- ==== Sys2Proof/Syntax.lean ====
section
/-! DEFINITION. The instructions: one constructor for each of the 35 rows of 30_encoding.md R96, in the
table's order. `x`, `y` are register indices, `nn`, `nnn`, `n` the immediates of R15. -/

namespace Sys2Proof

inductive Instr where
  /-- 00E0 `CLS` (R221) -/
  | cls
  /-- 00EE `RET` (R173) -/
  | ret
  /-- 0NNN `SYS NNN` (R181) -/
  | sys (nnn : Imm12)
  /-- 1NNN `JP NNN` (R171) -/
  | jp (nnn : Imm12)
  /-- 2NNN `CALL NNN` (R172) -/
  | call (nnn : Imm12)
  /-- 3XNN `SE Vx, NN` (R175) -/
  | seImm (x : RegIdx) (nn : Byte)
  /-- 4XNN `SNE Vx, NN` (R176) -/
  | sneImm (x : RegIdx) (nn : Byte)
  /-- 5XY0 `SE Vx, Vy` (R177) -/
  | seReg (x y : RegIdx)
  /-- 6XNN `LD Vx, NN` (R141) -/
  | ldImm (x : RegIdx) (nn : Byte)
  /-- 7XNN `ADD Vx, NN` (R142) -/
  | addImm (x : RegIdx) (nn : Byte)
  /-- 8XY0 `LD Vx, Vy` (R143) -/
  | ldReg (x y : RegIdx)
  /-- 8XY1 `OR Vx, Vy` (R144) -/
  | orReg (x y : RegIdx)
  /-- 8XY2 `AND Vx, Vy` (R145) -/
  | andReg (x y : RegIdx)
  /-- 8XY3 `XOR Vx, Vy` (R146) -/
  | xorReg (x y : RegIdx)
  /-- 8XY4 `ADD Vx, Vy` (R147) -/
  | addReg (x y : RegIdx)
  /-- 8XY5 `SUB Vx, Vy` (R148) -/
  | sub (x y : RegIdx)
  /-- 8XY6 `SHR Vx, Vy` (R149) -/
  | shr (x y : RegIdx)
  /-- 8XY7 `SUBN Vx, Vy` (R150) -/
  | subn (x y : RegIdx)
  /-- 8XYE `SHL Vx, Vy` (R151) -/
  | shl (x y : RegIdx)
  /-- 9XY0 `SNE Vx, Vy` (R178) -/
  | sneReg (x y : RegIdx)
  /-- ANNN `LD I, NNN` (R201) -/
  | ldI (nnn : Imm12)
  /-- BNNN `JP V0, NNN` (R174) -/
  | jpV0 (nnn : Imm12)
  /-- CXNN `RND Vx, NN` (R152) -/
  | rnd (x : RegIdx) (nn : Byte)
  /-- DXYN `DRW Vx, Vy, N` (R222) -/
  | drw (x y : RegIdx) (n : Nibble)
  /-- EX9E `SKP Vx` (R179) -/
  | skp (x : RegIdx)
  /-- EXA1 `SKNP Vx` (R180) -/
  | sknp (x : RegIdx)
  /-- FX07 `LD Vx, DT` (R241) -/
  | ldVxDt (x : RegIdx)
  /-- FX0A `LD Vx, K` (R242) -/
  | ldVxK (x : RegIdx)
  /-- FX15 `LD DT, Vx` (R243) -/
  | ldDtVx (x : RegIdx)
  /-- FX18 `LD ST, Vx` (R244) -/
  | ldStVx (x : RegIdx)
  /-- FX1E `ADD I, Vx` (R202) -/
  | addI (x : RegIdx)
  /-- FX29 `LD F, Vx` (R203) -/
  | ldF (x : RegIdx)
  /-- FX33 `LD B, Vx` (R204) -/
  | ldB (x : RegIdx)
  /-- FX55 `LD [I], Vx` (R205): the bulk store -/
  | ldMemVx (x : RegIdx)
  /-- FX65 `LD Vx, [I]` (R206): the bulk load -/
  | ldVxMem (x : RegIdx)
  deriving DecidableEq, Repr

end Sys2Proof
end

