-- ==== Sys2Proof/WellFormed.lean ====
section
/-! DEFINITION. Which terms of `Instr` are instructions of the hardware (30_encoding.md R96, R99). -/

namespace Sys2Proof

/-- The checks, for a given setting of `RND_DEFINED` (41_arith_logic.md R152): the words 00E0 and 00EE are
`CLS` and `RET`, never `SYS` (R94, R99), and `CXNN` is an instruction only where `RND` is defined. -/
def Instr.wellFormedIn (rndDefined : Bool) : Instr → Bool
  | .sys nnn => nnn != 0x0E0#12 && nnn != 0x0EE#12
  | .rnd _ _ => rndDefined
  | .cls | .ret | .jp _ | .call _ | .seImm _ _ | .sneImm _ _ | .seReg _ _ | .ldImm _ _ | .addImm _ _
  | .ldReg _ _ | .orReg _ _ | .andReg _ _ | .xorReg _ _ | .addReg _ _ | .sub _ _ | .shr _ _ | .subn _ _
  | .shl _ _ | .sneReg _ _ | .ldI _ | .jpV0 _ | .drw _ _ _ | .skp _ | .sknp _ | .ldVxDt _ | .ldVxK _
  | .ldDtVx _ | .ldStVx _ | .addI _ | .ldF _ | .ldB _ | .ldMemVx _ | .ldVxMem _ => true

/-- Well-formed on this hardware. -/
def Instr.wellFormed (i : Instr) : Bool := i.wellFormedIn Config.rndDefined

end Sys2Proof
end

