-- ==== Sys2Proof/Decode.lean ====
section
/-! DEFINITION. The decoder, total on words and on byte sequences, the encoder, and the opcode table, from
30_encoding.md R90 to R99. -/

namespace Sys2Proof

/-! ## Fields of the word (00_scope.md R15, 30_encoding.md R91) -/

/-- `G = op[15:12]`. -/
def opG (op : Word) : Nibble := op.extractLsb' 12 4

/-- `X = op[11:8]`. -/
def opX (op : Word) : RegIdx := op.extractLsb' 8 4

/-- `Y = op[7:4]`. -/
def opY (op : Word) : RegIdx := op.extractLsb' 4 4

/-- `N = op[3:0]`. -/
def opN (op : Word) : Nibble := op.extractLsb' 0 4

/-- `NN = op[7:0]`. -/
def opNN (op : Word) : Byte := op.extractLsb' 0 8

/-- `NNN = op[11:0]`. -/
def opNNN (op : Word) : Imm12 := op.extractLsb' 0 12

/-! ## The decoder -/

/-- Why the decoder rejects a word, by the name of the fault the word raises. -/
inductive Reject where
  /-- no handler for the sub-opcode (R97) -/
  | decodeError
  /-- `5XYN` or `9XYN` with a nonzero low nibble (R98) -/
  | malformedEncoding
  deriving DecidableEq, Repr

/-- Group 0 is decoded on the whole low 12 bits (R93, R94). -/
def decodeGroup0 (nnn : Imm12) : Instr :=
  if nnn = 0x0E0#12 then .cls else if nnn = 0x0EE#12 then .ret else .sys nnn

/-- Groups 5 and 9: the low nibble must be 0 (R93, R98). -/
def decodeXY0 (n : Nibble) (i : Instr) : Except Reject Instr :=
  if n = 0#4 then .ok i else .error .malformedEncoding

/-- Group 8 is decoded on `N` (R93, R97). -/
def decodeGroup8 (x y : RegIdx) (n : Nibble) : Except Reject Instr :=
  match n.toNat with
  | 0x0 => .ok (.ldReg x y)
  | 0x1 => .ok (.orReg x y)
  | 0x2 => .ok (.andReg x y)
  | 0x3 => .ok (.xorReg x y)
  | 0x4 => .ok (.addReg x y)
  | 0x5 => .ok (.sub x y)
  | 0x6 => .ok (.shr x y)
  | 0x7 => .ok (.subn x y)
  | 0xE => .ok (.shl x y)
  | _ => .error .decodeError

/-- Group E is decoded on `NN` (R93, R97). -/
def decodeGroupE (x : RegIdx) (nn : Byte) : Except Reject Instr :=
  match nn.toNat with
  | 0x9E => .ok (.skp x)
  | 0xA1 => .ok (.sknp x)
  | _ => .error .decodeError

/-- Group F is decoded on `NN` (R93, R97). -/
def decodeGroupF (x : RegIdx) (nn : Byte) : Except Reject Instr :=
  match nn.toNat with
  | 0x07 => .ok (.ldVxDt x)
  | 0x0A => .ok (.ldVxK x)
  | 0x15 => .ok (.ldDtVx x)
  | 0x18 => .ok (.ldStVx x)
  | 0x1E => .ok (.addI x)
  | 0x29 => .ok (.ldF x)
  | 0x33 => .ok (.ldB x)
  | 0x55 => .ok (.ldMemVx x)
  | 0x65 => .ok (.ldVxMem x)
  | _ => .error .decodeError

/-- The decoder for a given setting of `RND_DEFINED` (R93, R94; 41_arith_logic.md R152). The last arm is not
reached: a nibble is at most 0xF, and every top nibble has a handler (R97). -/
def decodeWordIn (rndDefined : Bool) (op : Word) : Except Reject Instr :=
  match (opG op).toNat with
  | 0x0 => .ok (decodeGroup0 (opNNN op))
  | 0x1 => .ok (.jp (opNNN op))
  | 0x2 => .ok (.call (opNNN op))
  | 0x3 => .ok (.seImm (opX op) (opNN op))
  | 0x4 => .ok (.sneImm (opX op) (opNN op))
  | 0x5 => decodeXY0 (opN op) (.seReg (opX op) (opY op))
  | 0x6 => .ok (.ldImm (opX op) (opNN op))
  | 0x7 => .ok (.addImm (opX op) (opNN op))
  | 0x8 => decodeGroup8 (opX op) (opY op) (opN op)
  | 0x9 => decodeXY0 (opN op) (.sneReg (opX op) (opY op))
  | 0xA => .ok (.ldI (opNNN op))
  | 0xB => .ok (.jpV0 (opNNN op))
  | 0xC => if rndDefined then .ok (.rnd (opX op) (opNN op)) else .error .decodeError
  | 0xD => .ok (.drw (opX op) (opY op) (opN op))
  | 0xE => decodeGroupE (opX op) (opNN op)
  | 0xF => decodeGroupF (opX op) (opNN op)
  | _ => .error .decodeError

/-- The decoder of this hardware. -/
def decodeWord (op : Word) : Except Reject Instr := decodeWordIn Config.rndDefined op

/-- Why a byte sequence gives no instruction. -/
inductive BytesReject where
  /-- fewer than the two bytes of an instruction (R90); the machine's fetch always has both -/
  | truncated
  /-- the word itself is rejected -/
  | word (r : Reject)
  deriving DecidableEq, Repr

/-- The instruction at the head of a byte sequence, high byte first (R90, 20_memory.md R63), and the bytes
after it. -/
def decode : List Byte → Except BytesReject (Instr × List Byte)
  | hi :: lo :: rest =>
    match decodeWord (hi ++ lo) with
    | .ok i => .ok (i, rest)
    | .error r => .error (.word r)
  | [_] => .error .truncated
  | [] => .error .truncated

/-! ## The encoder (R91, R96) -/

/-- The word of an instruction. -/
def encode : Instr → Word
  | .cls => 0x00E0#16
  | .ret => 0x00EE#16
  | .sys nnn => 0x0#4 ++ nnn
  | .jp nnn => 0x1#4 ++ nnn
  | .call nnn => 0x2#4 ++ nnn
  | .seImm x nn => 0x3#4 ++ x ++ nn
  | .sneImm x nn => 0x4#4 ++ x ++ nn
  | .seReg x y => 0x5#4 ++ x ++ y ++ 0x0#4
  | .ldImm x nn => 0x6#4 ++ x ++ nn
  | .addImm x nn => 0x7#4 ++ x ++ nn
  | .ldReg x y => 0x8#4 ++ x ++ y ++ 0x0#4
  | .orReg x y => 0x8#4 ++ x ++ y ++ 0x1#4
  | .andReg x y => 0x8#4 ++ x ++ y ++ 0x2#4
  | .xorReg x y => 0x8#4 ++ x ++ y ++ 0x3#4
  | .addReg x y => 0x8#4 ++ x ++ y ++ 0x4#4
  | .sub x y => 0x8#4 ++ x ++ y ++ 0x5#4
  | .shr x y => 0x8#4 ++ x ++ y ++ 0x6#4
  | .subn x y => 0x8#4 ++ x ++ y ++ 0x7#4
  | .shl x y => 0x8#4 ++ x ++ y ++ 0xE#4
  | .sneReg x y => 0x9#4 ++ x ++ y ++ 0x0#4
  | .ldI nnn => 0xA#4 ++ nnn
  | .jpV0 nnn => 0xB#4 ++ nnn
  | .rnd x nn => 0xC#4 ++ x ++ nn
  | .drw x y n => 0xD#4 ++ x ++ y ++ n
  | .skp x => 0xE#4 ++ x ++ 0x9E#8
  | .sknp x => 0xE#4 ++ x ++ 0xA1#8
  | .ldVxDt x => 0xF#4 ++ x ++ 0x07#8
  | .ldVxK x => 0xF#4 ++ x ++ 0x0A#8
  | .ldDtVx x => 0xF#4 ++ x ++ 0x15#8
  | .ldStVx x => 0xF#4 ++ x ++ 0x18#8
  | .addI x => 0xF#4 ++ x ++ 0x1E#8
  | .ldF x => 0xF#4 ++ x ++ 0x29#8
  | .ldB x => 0xF#4 ++ x ++ 0x33#8
  | .ldMemVx x => 0xF#4 ++ x ++ 0x55#8
  | .ldVxMem x => 0xF#4 ++ x ++ 0x65#8

/-- The two bytes of a word as they lie in memory, high byte first (20_memory.md R63). -/
def wordBytes (w : Word) : List Byte := [w.extractLsb' 8 8, w.extractLsb' 0 8]

/-- The bytes of an instruction. -/
def encodeBytes (i : Instr) : List Byte := wordBytes (encode i)

/-! ## The opcode table (R96) -/

/-- One row of R96: a word is of this row when `word &&& mask = value`. -/
structure OpcodeRow where
  mask : Word
  value : Word
  deriving DecidableEq, Repr

/-- Whether the word is of the row (R94). -/
def OpcodeRow.covers (r : OpcodeRow) (op : Word) : Bool := op &&& r.mask == r.value

/-- Rows 1 to 35 of R96 in the order written. -/
def opcodeTable : List OpcodeRow :=
  [ ⟨0xFFFF, 0x00E0⟩, ⟨0xFFFF, 0x00EE⟩, ⟨0xF000, 0x0000⟩, ⟨0xF000, 0x1000⟩, ⟨0xF000, 0x2000⟩,
    ⟨0xF000, 0x3000⟩, ⟨0xF000, 0x4000⟩, ⟨0xF00F, 0x5000⟩, ⟨0xF000, 0x6000⟩, ⟨0xF000, 0x7000⟩ ]
  ++
  [ ⟨0xF00F, 0x8000⟩, ⟨0xF00F, 0x8001⟩, ⟨0xF00F, 0x8002⟩, ⟨0xF00F, 0x8003⟩, ⟨0xF00F, 0x8004⟩,
    ⟨0xF00F, 0x8005⟩, ⟨0xF00F, 0x8006⟩, ⟨0xF00F, 0x8007⟩, ⟨0xF00F, 0x800E⟩, ⟨0xF00F, 0x9000⟩ ]
  ++
  [ ⟨0xF000, 0xA000⟩, ⟨0xF000, 0xB000⟩, ⟨0xF000, 0xC000⟩, ⟨0xF000, 0xD000⟩, ⟨0xF0FF, 0xE09E⟩,
    ⟨0xF0FF, 0xE0A1⟩, ⟨0xF0FF, 0xF007⟩, ⟨0xF0FF, 0xF00A⟩, ⟨0xF0FF, 0xF015⟩, ⟨0xF0FF, 0xF018⟩ ]
  ++
  [ ⟨0xF0FF, 0xF01E⟩, ⟨0xF0FF, 0xF029⟩, ⟨0xF0FF, 0xF033⟩, ⟨0xF0FF, 0xF055⟩, ⟨0xF0FF, 0xF065⟩ ]

/-- The place, counted from 0, of an instruction's row in `opcodeTable`. -/
def Instr.rowIndex : Instr → Nat
  | .cls => 0 | .ret => 1 | .sys _ => 2 | .jp _ => 3 | .call _ => 4
  | .seImm _ _ => 5 | .sneImm _ _ => 6 | .seReg _ _ => 7 | .ldImm _ _ => 8 | .addImm _ _ => 9
  | .ldReg _ _ => 10 | .orReg _ _ => 11 | .andReg _ _ => 12 | .xorReg _ _ => 13 | .addReg _ _ => 14
  | .sub _ _ => 15 | .shr _ _ => 16 | .subn _ _ => 17 | .shl _ _ => 18 | .sneReg _ _ => 19
  | .ldI _ => 20 | .jpV0 _ => 21 | .rnd _ _ => 22 | .drw _ _ _ => 23 | .skp _ => 24
  | .sknp _ => 25 | .ldVxDt _ => 26 | .ldVxK _ => 27 | .ldDtVx _ => 28 | .ldStVx _ => 29
  | .addI _ => 30 | .ldF _ => 31 | .ldB _ => 32 | .ldMemVx _ => 33 | .ldVxMem _ => 34

/-- The first row, in the order written, that covers the word (R94). -/
def firstRow (op : Word) : Option Nat := opcodeTable.findIdx? (·.covers op)

/-! ## The table's view of the decoder -/

/-- The instruction the decoder reads from an instruction whose first `nbits` bits are `w`, numbered as
spec/opcode_table.json numbers them; every bit above `nbits` is 0. -/
def decodeTableWord (nbits w : Nat) : Option Instr :=
  match decode (wordBytes (BitVec.ofNat 16 (w % 2 ^ nbits))) with
  | .ok (i, _) => some i
  | .error _ => none

end Sys2Proof
end

