-- ==== Sys2Proof/Machine/State.lean ====
section
/-! DEFINITION. The state of the machine, MachineState of 10_state.md R20, the reasons a step can stop, and
the state after reset (R38). -/

namespace Sys2Proof.Machine

/-- The fatal errors of 60_exceptions.md R281, one constructor a cause. Each carries the report of R291: the
instruction word fetched and the address it was fetched from. Every one is the hardware's own (the spec says
the step ends so and changes nothing), so each is safe as a stop; a wrong condition would be unsafe. -/
inductive Fault where
  /-- code 1 (R282): raised at decode for the words of 30_encoding.md R97 -/
  | decodeError (op pc : Word)
  /-- code 2 (R283): raised at decode for the words of 30_encoding.md R98 -/
  | malformedEncoding (op pc : Word)
  /-- code 3 (R284): raised by `CALL` with a full stack -/
  | stackOverflow (op pc : Word)
  /-- code 4 (R285): raised by `RET` with an empty stack -/
  | stackUnderflow (op pc : Word)
  /-- code 5 (R286): raised by `DRW`, `LD B`, `LD [I], Vx`, `LD Vx, [I]` when their bytes leave memory -/
  | memOutOfRange (op pc : Word)
  /-- code 6 (R287): raised by `SYS` always -/
  | unsupportedNative (op pc : Word)
  /-- code 7 (R288): raised by `SetPc` for a value above `MEM_SIZE - 2` -/
  | pcOutOfBounds (op pc : Word)
  /-- code 8 (R289): raised by `SetPc` for an odd value in bounds -/
  | pcMisaligned (op pc : Word)
  /-- code 9 (R290): raised by `SKP` and `SKNP` when the register names no key -/
  | keyIndexOutOfRange (op pc : Word)
  deriving DecidableEq, Repr

/-- What has no meaning in the model. -/
inductive Refusal where
  /-- an instruction `exec` has no meaning for yet; raised by `exec` alone; safe -/
  | notModelled (mnemonic : String)
  /-- raised by the step cycle in a state whose pc is odd or beyond the last instruction address: 10_state.md
  R25 says no such state exists between operations, so no run reaches it; safe (log entry 4) -/
  | pcInvariantBroken (pc : Word)
  /-- raised by the host operation `load` on more bytes than the bound of 46_host_interface.md R262; safe -/
  | loadTooLong (length : Nat)
  deriving DecidableEq, Repr

/-- Memory as a finite list of the bytes that differ from the reset contents, addresses strictly rising (log
entry 5). -/
abbrev Memory := List Host.Cell

/-- The 64 x 32 framebuffer, one row a component, row 0 on top; bit `x` of row `y` is `disp[y][x]` (R33; which
bit of the component holds which column is the model's own, log entry 8). -/
abbrev Display := Vector (BitVec 64) 32

/-- MachineState (R20), and the counter of draws. -/
structure State where
  /-- `V[0]` to `V[0xF]` (R21) -/
  v : Vector Byte 16
  /-- `I` (R27) -/
  index : Word
  /-- `pc` (R24) -/
  pc : Word
  /-- the return-address stack (R28) -/
  stack : Vector Word Config.stackDepth
  /-- `sp`: 0 to `STACK_DEPTH` inclusive (R29) -/
  sp : Fin (Config.stackDepth + 1)
  /-- `mem` (R35) -/
  mem : Memory
  /-- `disp` (R33) -/
  disp : Display
  /-- `DT` (R30) -/
  dt : Byte
  /-- `ST` (R30) -/
  st : Byte
  /-- `keys` (R32) -/
  keys : Vector Bool 16
  /-- `key_wait` (R31): `none` is RUNNING, `some r` is WAITING_FOR_KEY(r) -/
  keyWait : Option RegIdx
  /-- how many draws `RND` has consumed: the model's own field (log entry 1) -/
  draws : Nat
  deriving DecidableEq, Repr

/-- The reset state (R38). Memory lists nothing: an unlisted address reads as its reset contents. `draws` is
the model's own (DESIGN CHOICE 0, log entry 1). -/
def State.reset : State where
  v := Vector.replicate 16 0
  index := 0
  pc := 0x0200
  stack := Vector.replicate Config.stackDepth 0
  sp := 0
  mem := []
  disp := Vector.replicate 32 0
  dt := 0
  st := 0
  keys := Vector.replicate 16 false
  keyWait := none
  draws := 0

end Sys2Proof.Machine
end

