-- ==== Sys2Proof/Machine/Ops.lean ====
section
/-! DEFINITION. The named operations over memory, registers, the program counter and the fatal errors, used by
every meaning. -/

namespace Sys2Proof.Machine

/-! ## Memory (20_memory.md) -/

/-- What a byte of memory holds after reset (10_state.md R38): the font table at `FONT_BASE`, 0 elsewhere. It
is also what an address not listed in `Memory` reads as. -/
def initialByte (a : Nat) : Byte :=
  if Config.fontBase ≤ a ∧ a < Config.fontBase + Config.fontSize then
    Config.font.getD (a - Config.fontBase) 0
  else 0

/-- The byte listed for an address. -/
def Memory.lookup : Memory → Nat → Option Byte
  | [], _ => none
  | c :: rest, a => if c.1 = a then some c.2 else Memory.lookup rest a

/-- `MemRead(a, 1)` (00_scope.md R17). Every use is behind a range test (20_memory.md R70) or at an address
the pc invariant keeps inside memory (R65). -/
def Memory.read (m : Memory) (a : Nat) : Byte := (m.lookup a).getD (initialByte a)

/-- The cell put at the head of a list, but left out where it holds the reset contents. -/
def Memory.consCell (a : Nat) (b : Byte) (rest : Memory) : Memory :=
  if b = initialByte a then rest else (a, b) :: rest

/-- A cell put at its place in the list. -/
def Memory.put : Memory → Nat → Byte → Memory
  | [], a, b => Memory.consCell a b []
  | c :: rest, a, b =>
    if a < c.1 then Memory.consCell a b (c :: rest)
    else if a = c.1 then Memory.consCell a b rest
    else c :: Memory.put rest a b

/-- `MemWrite(a, 1, v)` (R17). An address outside `[0, MEM_SIZE)` does not exist: nothing is stored there; no
meaning writes one, since each tests its whole range first (log entry 5). -/
def Memory.write (m : Memory) (a : Nat) (b : Byte) : Memory :=
  if a < Config.memSize then m.put a b else m

/-- Bytes written at ascending addresses (20_memory.md R64). -/
def Memory.writeBytes : Memory → Nat → List Byte → Memory
  | m, _, [] => m
  | m, a, b :: bs => Memory.writeBytes (m.write a b) (a + 1) bs

/-- The canonical form: addresses strictly rising, every one inside memory, no cell equal to the reset
contents. -/
abbrev Memory.wf (m : Memory) : Prop :=
  m.Pairwise (fun c d => c.1 < d.1) ∧ ∀ c ∈ m, c.1 < Config.memSize ∧ c.2 ≠ initialByte c.1

/-! ## Registers (10_state.md R21 to R23) -/

/-- `V[x]`. -/
def State.getV (s : State) (x : RegIdx) : Byte := s.v[x.toNat]

/-- `V[x] <- b`. -/
def State.setV (s : State) (x : RegIdx) (b : Byte) : State := { s with v := s.v.set x.toNat b }

/-- The flag register's index: `VF = V[0xF]` (R22). -/
def vf : RegIdx := 0xF#4

/-- `VF <- flag`, always 0x00 or 0x01 (R22). -/
def State.setFlag (s : State) (flag : Bool) : State := s.setV vf (if flag then 1 else 0)

/-! ## Fatal errors (60_exceptions.md) -/

/-- The shared entry into a fatal error: the step ends with the cause, the instruction's word and the pc, which
still holds the instruction's own address (R291, 10_state.md R24). There is no handler, no saved register and
no return: nothing else happens (R293 to R295). -/
def raise (cause : Word → Word → Fault) (i : Instr) (s : State) : Host.Outcome State Fault Refusal :=
  .fault (cause (encode i) s.pc)

/-- The numeric code of a cause (R281). -/
def Fault.code : Fault → Nat
  | .decodeError _ _ => 1
  | .malformedEncoding _ _ => 2
  | .stackOverflow _ _ => 3
  | .stackUnderflow _ _ => 4
  | .memOutOfRange _ _ => 5
  | .unsupportedNative _ _ => 6
  | .pcOutOfBounds _ _ => 7
  | .pcMisaligned _ _ => 8
  | .keyIndexOutOfRange _ _ => 9

/-- The opcode a fault reports (R291). -/
def Fault.op : Fault → Word
  | .decodeError op _ | .malformedEncoding op _ | .stackOverflow op _ | .stackUnderflow op _
  | .memOutOfRange op _ | .unsupportedNative op _ | .pcOutOfBounds op _ | .pcMisaligned op _
  | .keyIndexOutOfRange op _ => op

/-- The program counter a fault reports (R291). -/
def Fault.pc : Fault → Word
  | .decodeError _ pc | .malformedEncoding _ pc | .stackOverflow _ pc | .stackUnderflow _ pc
  | .memOutOfRange _ pc | .unsupportedNative _ pc | .pcOutOfBounds _ pc | .pcMisaligned _ pc
  | .keyIndexOutOfRange _ pc => pc

/-! ## The program counter (40_step_and_dispatch.md R127, R128) -/

/-- `SetPc(t)` (R127): the only way `pc` is written. The target is a natural number, the bounds test comes
first, and the report is the current instruction and its address. -/
def setPc (i : Instr) (t : Nat) (s : State) : Host.Outcome State Fault Refusal :=
  if Config.memSize - 2 < t then raise .pcOutOfBounds i s
  else if t % 2 = 1 then raise .pcMisaligned i s
  else .next { s with pc := BitVec.ofNat 16 t }

/-- `SetPc(pc + 2)`: the end of every instruction that transfers no control (R128). -/
def advance (i : Instr) (s : State) : Host.Outcome State Fault Refusal := setPc i (s.pc.toNat + 2) s

/-- `SetPc(pc + 4)` if the condition holds, else `SetPc(pc + 2)` (R128). -/
def skipIf (i : Instr) (cond : Bool) (s : State) : Host.Outcome State Fault Refusal :=
  setPc i (s.pc.toNat + if cond then 4 else 2) s

/-! ## The range test of data accesses (20_memory.md R70) -/

/-- The bytes `I .. I + l - 1` lie in memory, or there are none; the sum is taken on natural numbers. -/
def State.rangeOk (s : State) (l : Nat) : Bool := l == 0 || decide (s.index.toNat + l ≤ Config.memSize)

/-- The range test before an access of `l` bytes at `I`: `MemOutOfRange` where it fails, before any effect. -/
def guardRange (i : Instr) (l : Nat) (s : State) (k : Host.Outcome State Fault Refusal) :
    Host.Outcome State Fault Refusal :=
  if s.rangeOk l then k else raise .memOutOfRange i s

/-- `MemRead(I + k, 1)`: the one data addressing mode (43_memory_index.md R207). -/
def State.readAt (s : State) (k : Nat) : Byte := s.mem.read (s.index.toNat + k)

end Sys2Proof.Machine
end

