-- ==== Sys2Proof/Machine/Flags.lean ====
section
/-! DEFINITION. The flag computations, each from the operands before any write (10_state.md R22, R23). -/

namespace Sys2Proof.Machine

/-- The carry of `ADD Vx, Vy`: the sum exceeds 255 (41_arith_logic.md R147). -/
def carryFlag (a b : Byte) : Bool := decide (255 < a.toNat + b.toNat)

/-- The flag of a subtraction `a - b` under a setting of `QUIRK_FLAG_NOT_BORROW` (41_arith_logic.md R148,
R150): not-borrow, or borrow. -/
def borrowFlag (notBorrow : Bool) (a b : Byte) : Bool :=
  if notBorrow then decide (b.toNat ≤ a.toNat) else !decide (b.toNat ≤ a.toNat)

/-- The bit `SHR` shifts out: bit 0 of the source before the shift (41_arith_logic.md R149). -/
def shrFlag (b : Byte) : Bool := b.getLsbD 0

/-- The bit `SHL` shifts out: bit 7 of the source before the shift (41_arith_logic.md R151). -/
def shlFlag (b : Byte) : Bool := b.getLsbD 7

end Sys2Proof.Machine
end

