-- ==== Sys2Proof/Machine/Operands.lean ====
section
/-! DEFINITION. The operand forms: what an instruction reads, computed before it writes anything
(40_step_and_dispatch.md R131). -/

namespace Sys2Proof.Machine

/-- The source of `SHR` and `SHL` under a setting of `QUIRK_SHIFT_USES_VY` (41_arith_logic.md R149, R151). -/
def shiftSource (usesVy : Bool) (s : State) (x y : RegIdx) : Byte := if usesVy then s.getV y else s.getV x

/-- The target of `JP V0, NNN`: a natural sum, reduced nowhere (42_control_flow.md R174). -/
def jumpOffsetTarget (s : State) (nnn : Imm12) : Nat := nnn.toNat + (s.getV 0#4).toNat

/-- The value `CALL` saves: the address of the instruction after it (42_control_flow.md R172). -/
def returnAddress (s : State) : Word := s.pc + 2

/-- The level `keys[k]` of a key code `k` at most 15 (42_control_flow.md R179, 10_state.md R32). -/
def State.keyHeld (s : State) (k : Byte) : Bool := s.keys[k.toNat]?.getD false

/-- The glyph address of `LD F, Vx`: the low nibble of the register selects (43_memory_index.md R203). -/
def fontAddress (b : Byte) : Word :=
  BitVec.ofNat 16 (Config.fontBase + Config.fontHeight * (b.extractLsb' 0 4).toNat)

/-- The decimal digits of `LD B, Vx`, hundreds first (43_memory_index.md R204). -/
def bcdDigits (b : Byte) : List Byte :=
  [BitVec.ofNat 8 (b.toNat / 100), BitVec.ofNat 8 (b.toNat / 10 % 10), BitVec.ofNat 8 (b.toNat % 10)]

/-- How many registers `V[0] .. V[X]` a bulk transfer moves (43_memory_index.md R205, R206). -/
def rangeLength (x : RegIdx) : Nat := x.toNat + 1

/-- The registers `V[0] .. V[X]` of the bulk store, ascending (43_memory_index.md R205). -/
def State.regRange (s : State) (x : RegIdx) : List Byte := s.v.toList.take (rangeLength x)

/-- `V[i] <- MemRead(a + i, 1)` for `i` = 0 .. n-1, ascending (43_memory_index.md R206). -/
def loadRange (m : Memory) (a : Nat) : Nat → Vector Byte 16 → Vector Byte 16
  | 0, v => v
  | k + 1, v => (loadRange m a k v).setIfInBounds k (m.read (a + k))

/-- `I` after a bulk transfer of `n` registers, under a setting of `QUIRK_INDEX_ADVANCE` (43_memory_index.md
R205, R206). -/
def indexAfterBulk (advances : Bool) (s : State) (n : Nat) : Word :=
  if advances then BitVec.ofNat 16 (s.index.toNat + n) else s.index

end Sys2Proof.Machine
end

