-- ==== Sys2Proof/Machine/Arith.lean ====
section
/-! DEFINITION. Arithmetic and logic, groups 6, 7, 8 and C (41_arith_logic.md). The result is written first and
the flag last (10_state.md R23), so with `X` = 0xF the flag remains (R154). -/

namespace Sys2Proof.Machine

/-- 6XNN (R141). -/
def execLdImm (x : RegIdx) (nn : Byte) (s : State) : Host.Outcome State Fault Refusal :=
  advance (.ldImm x nn) (s.setV x nn)

/-- 7XNN (R142): no flag. -/
def execAddImm (x : RegIdx) (nn : Byte) (s : State) : Host.Outcome State Fault Refusal :=
  advance (.addImm x nn) (s.setV x (s.getV x + nn))

/-- 8XY0 (R143). -/
def execLdReg (x y : RegIdx) (s : State) : Host.Outcome State Fault Refusal :=
  advance (.ldReg x y) (s.setV x (s.getV y))

/-- 8XY1 (R144): `VF` is no flag here. -/
def execOrReg (x y : RegIdx) (s : State) : Host.Outcome State Fault Refusal :=
  advance (.orReg x y) (s.setV x (s.getV x ||| s.getV y))

/-- 8XY2 (R145). -/
def execAndReg (x y : RegIdx) (s : State) : Host.Outcome State Fault Refusal :=
  advance (.andReg x y) (s.setV x (s.getV x &&& s.getV y))

/-- 8XY3 (R146). -/
def execXorReg (x y : RegIdx) (s : State) : Host.Outcome State Fault Refusal :=
  advance (.xorReg x y) (s.setV x (s.getV x ^^^ s.getV y))

/-- 8XY4 (R147). -/
def execAddReg (x y : RegIdx) (s : State) : Host.Outcome State Fault Refusal :=
  advance (.addReg x y) ((s.setV x (s.getV x + s.getV y)).setFlag (carryFlag (s.getV x) (s.getV y)))

/-- 8XY5 (R148). -/
def execSub (x y : RegIdx) (s : State) : Host.Outcome State Fault Refusal :=
  advance (.sub x y)
    ((s.setV x (s.getV x - s.getV y)).setFlag (borrowFlag Config.quirkFlagNotBorrow (s.getV x) (s.getV y)))

/-- 8XY6 (R149). -/
def execShr (x y : RegIdx) (s : State) : Host.Outcome State Fault Refusal :=
  advance (.shr x y)
    ((s.setV x (shiftSource Config.quirkShiftUsesVy s x y >>> 1)).setFlag
      (shrFlag (shiftSource Config.quirkShiftUsesVy s x y)))

/-- 8XY7 (R150). -/
def execSubn (x y : RegIdx) (s : State) : Host.Outcome State Fault Refusal :=
  advance (.subn x y)
    ((s.setV x (s.getV y - s.getV x)).setFlag (borrowFlag Config.quirkFlagNotBorrow (s.getV y) (s.getV x)))

/-- 8XYE (R151). -/
def execShl (x y : RegIdx) (s : State) : Host.Outcome State Fault Refusal :=
  advance (.shl x y)
    ((s.setV x (shiftSource Config.quirkShiftUsesVy s x y <<< 1)).setFlag
      (shlFlag (shiftSource Config.quirkShiftUsesVy s x y)))

/-- CXNN (R152): the draw is a free value, and the counter of draws advances (log entry 1). -/
def execRnd (x : RegIdx) (nn : Byte) (s : State) : Host.Outcome State Fault Refusal :=
  advance (.rnd x nn) ({ s with draws := s.draws + 1 }.setV x (Config.drawByte s.draws &&& nn))

end Sys2Proof.Machine
end

