-- ==== Sys2Proof/Machine/Control.lean ====
section
/-! DEFINITION. Control flow (42_control_flow.md). Checks come before writes; `SetPc` comes last and a fault
commits nothing (40_step_and_dispatch.md R126). -/

namespace Sys2Proof.Machine

/-- 00EE (R173). A popped slot keeps its value (10_state.md R28). -/
def execRet (s : State) : Host.Outcome State Fault Refusal :=
  if h : s.sp.val = 0 then raise .stackUnderflow .ret s
  else
    setPc .ret (s.stack[s.sp.val - 1]'(by omega)).toNat { s with sp := ⟨s.sp.val - 1, by omega⟩ }

/-- 0NNN (R181): always the fatal error. -/
def execSys (nnn : Imm12) (s : State) : Host.Outcome State Fault Refusal :=
  raise .unsupportedNative (.sys nnn) s

/-- 1NNN (R171). -/
def execJp (nnn : Imm12) (s : State) : Host.Outcome State Fault Refusal :=
  setPc (.jp nnn) nnn.toNat s

/-- 2NNN (R172). -/
def execCall (nnn : Imm12) (s : State) : Host.Outcome State Fault Refusal :=
  if h : s.sp.val = Config.stackDepth then raise .stackOverflow (.call nnn) s
  else
    setPc (.call nnn) nnn.toNat
      { s with
        stack := s.stack.set s.sp.val (returnAddress s) (by omega)
        sp := ⟨s.sp.val + 1, by omega⟩ }

/-- 3XNN (R175). -/
def execSeImm (x : RegIdx) (nn : Byte) (s : State) : Host.Outcome State Fault Refusal :=
  skipIf (.seImm x nn) (s.getV x == nn) s

/-- 4XNN (R176). -/
def execSneImm (x : RegIdx) (nn : Byte) (s : State) : Host.Outcome State Fault Refusal :=
  skipIf (.sneImm x nn) (s.getV x != nn) s

/-- 5XY0 (R177). -/
def execSeReg (x y : RegIdx) (s : State) : Host.Outcome State Fault Refusal :=
  skipIf (.seReg x y) (s.getV x == s.getV y) s

/-- 9XY0 (R178). -/
def execSneReg (x y : RegIdx) (s : State) : Host.Outcome State Fault Refusal :=
  skipIf (.sneReg x y) (s.getV x != s.getV y) s

/-- BNNN (R174). -/
def execJpV0 (nnn : Imm12) (s : State) : Host.Outcome State Fault Refusal :=
  setPc (.jpV0 nnn) (jumpOffsetTarget s nnn) s

/-- EX9E (R179). -/
def execSkp (x : RegIdx) (s : State) : Host.Outcome State Fault Refusal :=
  if 15 < (s.getV x).toNat then raise .keyIndexOutOfRange (.skp x) s
  else skipIf (.skp x) (s.keyHeld (s.getV x)) s

/-- EXA1 (R180). -/
def execSknp (x : RegIdx) (s : State) : Host.Outcome State Fault Refusal :=
  if 15 < (s.getV x).toNat then raise .keyIndexOutOfRange (.sknp x) s
  else skipIf (.sknp x) (!s.keyHeld (s.getV x)) s

end Sys2Proof.Machine
end

