-- ==== Sys2Proof/Machine/Blit.lean ====
section
/-! DEFINITION. The display engine: pixels, the XOR-blit of a sprite with collision and edge clipping
(44_display.md R220 to R228). -/

namespace Sys2Proof.Machine

/-- `disp[y][x]` (10_state.md R33). -/
def Display.pixel (d : Display) (x y : Nat) : Bool := (d[y]?.getD 0).getLsbD x

/-- A row with one bit written. -/
def rowWithBit (row : BitVec 64) (x : Nat) (bit : Bool) : BitVec 64 :=
  if bit then row ||| (1#64 <<< x) else row &&& ~~~(1#64 <<< x)

/-- `disp[y][x] <- bit`. -/
def Display.setPixel (d : Display) (x y : Nat) (bit : Bool) : Display :=
  d.setIfInBounds y (rowWithBit (d[y]?.getD 0) x bit)

/-- The display with every pixel 0 (R221). -/
def blankDisplay : Display := Vector.replicate 32 0

/-- One sprite bit at column `x`, row `y`: a clipped column takes no part; otherwise the bit is XORed onto the
pixel and a pixel going from 1 to 0 is a hit (R222, R224, R225). -/
def blitPixel (bit : Bool) (x y : Nat) (acc : Display × Bool) : Display × Bool :=
  if x ≤ Config.displayW - 1 then
    (acc.1.setPixel x y (Bool.xor (acc.1.pixel x y) bit), acc.2 || (bit && acc.1.pixel x y))
  else acc

/-- Sprite columns 0 .. n-1 of one sprite row; bit 7 is the leftmost (R223). -/
def blitColumns (row : Byte) (x0 y : Nat) : Nat → Display × Bool → Display × Bool
  | 0, acc => acc
  | c + 1, acc => blitPixel (row.getLsbD (7 - c)) (x0 + c) y (blitColumns row x0 y c acc)

/-- One sprite row at display row `y`, or nothing where the row is clipped (R222, R224). -/
def blitRow (row : Byte) (x0 y : Nat) (acc : Display × Bool) : Display × Bool :=
  if y ≤ Config.displayH - 1 then blitColumns row x0 y 8 acc else acc

/-- Sprite rows 0 .. n-1, row `r` drawn at display row `y0 + r` (R222). -/
def blitRows (row : Nat → Byte) (x0 y0 : Nat) : Nat → Display × Bool → Display × Bool
  | 0, acc => acc
  | r + 1, acc => blitRow (row r) x0 (y0 + r) (blitRows row x0 y0 r acc)

/-- The display and the collision flag after drawing the `n`-row sprite at `I` at the start position, which
wraps (R222, R224). -/
def State.drawSprite (s : State) (x y : RegIdx) (n : Nat) : Display × Bool :=
  blitRows s.readAt ((s.getV x).toNat % Config.displayW) ((s.getV y).toNat % Config.displayH) n (s.disp, false)

end Sys2Proof.Machine
end

