-- ==== Sys2Proof/Machine/Draw.lean ====
section
/-! DEFINITION. The display instructions (44_display.md). -/

namespace Sys2Proof.Machine

/-- 00E0 (R221). -/
def execCls (s : State) : Host.Outcome State Fault Refusal :=
  advance .cls { s with disp := blankDisplay }

/-- DXYN (R222): the range test covers all `N` bytes, clipped rows included (R226); the coordinates are read
before the flag is written. -/
def execDrw (x y : RegIdx) (n : Nibble) (s : State) : Host.Outcome State Fault Refusal :=
  guardRange (.drw x y n) n.toNat s
    (advance (.drw x y n)
      ({ s with disp := (s.drawSprite x y n.toNat).1 }.setFlag (s.drawSprite x y n.toNat).2))

end Sys2Proof.Machine
end

