-- ==== Sys2Proof/Machine/MemIndex.lean ====
section
/-! DEFINITION. Memory and index-register instructions (43_memory_index.md). -/

namespace Sys2Proof.Machine

/-- ANNN (R201). -/
def execLdI (nnn : Imm12) (s : State) : Host.Outcome State Fault Refusal :=
  advance (.ldI nnn) { s with index := nnn.zeroExtend 16 }

/-- FX1E (R202): modulo 65536, no flag, no range test. -/
def execAddI (x : RegIdx) (s : State) : Host.Outcome State Fault Refusal :=
  advance (.addI x) { s with index := s.index + (s.getV x).zeroExtend 16 }

/-- FX29 (R203). -/
def execLdF (x : RegIdx) (s : State) : Host.Outcome State Fault Refusal :=
  advance (.ldF x) { s with index := fontAddress (s.getV x) }

/-- FX33 (R204). -/
def execLdB (x : RegIdx) (s : State) : Host.Outcome State Fault Refusal :=
  guardRange (.ldB x) 3 s
    (advance (.ldB x) { s with mem := s.mem.writeBytes s.index.toNat (bcdDigits (s.getV x)) })

/-- FX55 (R205). -/
def execLdMemVx (x : RegIdx) (s : State) : Host.Outcome State Fault Refusal :=
  guardRange (.ldMemVx x) (rangeLength x) s
    (advance (.ldMemVx x)
      { s with
        mem := s.mem.writeBytes s.index.toNat (s.regRange x)
        index := indexAfterBulk Config.quirkIndexAdvance s (rangeLength x) })

/-- FX65 (R206). -/
def execLdVxMem (x : RegIdx) (s : State) : Host.Outcome State Fault Refusal :=
  guardRange (.ldVxMem x) (rangeLength x) s
    (advance (.ldVxMem x)
      { s with
        v := loadRange s.mem s.index.toNat (rangeLength x) s.v
        index := indexAfterBulk Config.quirkIndexAdvance s (rangeLength x) })

end Sys2Proof.Machine
end

