-- ==== Sys2Proof/Machine/Timer.lean ====
section
/-! DEFINITION. Timer and wait-for-key instructions (45_timer_input.md). The step has already decremented the
timers when a meaning runs (40_step_and_dispatch.md R122). -/

namespace Sys2Proof.Machine

/-- FX07 (R241). -/
def execLdVxDt (x : RegIdx) (s : State) : Host.Outcome State Fault Refusal :=
  advance (.ldVxDt x) (s.setV x s.dt)

/-- FX0A (R242): the latch is set and the pc moves past the instruction; `setKeys` writes the register. -/
def execLdVxK (x : RegIdx) (s : State) : Host.Outcome State Fault Refusal :=
  advance (.ldVxK x) { s with keyWait := some x }

/-- FX15 (R243): replaces the decremented value. -/
def execLdDtVx (x : RegIdx) (s : State) : Host.Outcome State Fault Refusal :=
  advance (.ldDtVx x) { s with dt := s.getV x }

/-- FX18 (R244): replaces the decremented value. -/
def execLdStVx (x : RegIdx) (s : State) : Host.Outcome State Fault Refusal :=
  advance (.ldStVx x) { s with st := s.getV x }

end Sys2Proof.Machine
end

