-- ==== Sys2Proof/Machine/Cycle.lean ====
section
/-! DEFINITION. The step cycle around the instruction (40_step_and_dispatch.md R120 to R126). -/

namespace Sys2Proof.Machine

/-- `t = 0 ? 0 : t - 1` (R122). -/
def decrement (t : Byte) : Byte := if t = 0 then 0 else t - 1

/-- The timer pre-decrement (R122). -/
def State.tickTimers (s : State) : State := { s with dt := decrement s.dt, st := decrement s.st }

/-- Fetch (R124): the two bytes at `pc`, high byte first (20_memory.md R63). -/
def State.fetchWord (s : State) : Word := s.mem.read s.pc.toNat ++ s.mem.read (s.pc.toNat + 1)

/-- The pc invariant (10_state.md R25): even, and both bytes of the instruction in memory. -/
abbrev PcOk (pc : Word) : Prop := pc.toNat % 2 = 0 ∧ pc.toNat ≤ Config.memSize - 2

/-- The fatal error of a word that is no instruction, with the word and its address (R125; 30_encoding.md R97,
R98). -/
def rejectFault (r : Reject) (op pc : Word) : Fault :=
  match r with
  | .decodeError => .decodeError op pc
  | .malformedEncoding => .malformedEncoding op pc

/-- Decode and dispatch of a fetched word, with the timers decremented before the instruction sees them
(R122, R125). A fault carries no state, so nothing is committed by it (R126). -/
def executeWord (op : Word) (s : State) : Host.Outcome State Fault Refusal :=
  match decodeWord op with
  | .ok i => exec i s.tickTimers
  | .error r => .fault (rejectFault r op s.pc)

/-- One cycle in the order of R123. A blocked step changes nothing (R121). A state outside the pc invariant,
which does not occur (10_state.md R25), is refused (log entry 4). -/
def cycle (s : State) : Host.Outcome State Fault Refusal :=
  match s.keyWait with
  | some _ => .next s
  | none => if PcOk s.pc then executeWord s.fetchWord s else .refused (.pcInvariantBroken s.pc)

/-- An instruction word put where the next cycle fetches it, with the latch RUNNING so that the next cycle
fetches (R121, R124). -/
def State.placeWord (s : State) (w : Word) : State :=
  { s with mem := s.mem.writeBytes s.pc.toNat (wordBytes w), keyWait := none }

end Sys2Proof.Machine
end

