-- ==== Sys2Proof/Machine/Step.lean ====
section
/-! DEFINITION. The step of the machine (40_step_and_dispatch.md R120), and an instruction placed where it
fetches. -/

namespace Sys2Proof.Machine

/-- `step()`: one cycle. -/
def step (s : State) : Host.Outcome State Fault Refusal := cycle s

/-- The state with the instruction whose first `nbits` bits are `w` (the bits above them 0) stored where `step`
fetches its next instruction (log entry 10). -/
def State.withFetchWord (s : State) (nbits w : Nat) : State := s.placeWord (BitVec.ofNat 16 (w % 2 ^ nbits))

end Sys2Proof.Machine
end

