-- ==== Sys2Proof/Machine/Interface.lean ====
section
/-! DEFINITION. The host-facing operations (46_host_interface.md R260 to R267), and a run as the sequence of
operations the host issues (00_scope.md R13). -/

namespace Sys2Proof.Machine

/-- One entry of the argument of `setKeys` (R263). -/
inductive KeyTransition where
  | pressed
  | released
  | unchanged
  deriving DecidableEq, Repr

/-- The six operations (R260). -/
inductive HostOp where
  | reset
  | load (bytes : List Byte)
  | setKeys (tr : Vector KeyTransition 16)
  | step
  | displaySnapshot
  | soundActive
  deriving DecidableEq, Repr

/-- What a `step` returns to the host (40_step_and_dispatch.md R129): `Blocked`, `Executed` with the committed
state, `Fault` with its report; `refused` is the model's own (log entry 4). -/
inductive StepReport where
  | blocked
  | executed (s : State)
  | fault (f : Fault)
  | refused (r : Refusal)
  deriving DecidableEq, Repr

/-- `reset()` (R261): the reset state, whatever the state was. The draws consumed so far are no part of
MachineState and stay counted, so that no draw is used twice (log entry 2). -/
def State.hostReset (s : State) : State := { State.reset with draws := s.draws }

/-- `load(bytes)` (R262): the bytes from 0x200 upward, nothing else; refused past the bound. -/
def State.load (bytes : List Byte) (s : State) : Host.Outcome State Fault Refusal :=
  if bytes.length ≤ Config.memSize - Config.programOrigin then
    .next { s with mem := s.mem.writeBytes Config.programOrigin bytes }
  else .refused (.loadTooLong bytes.length)

/-- A key flag after its transition (R263). -/
def keyAfter (t : KeyTransition) (held : Bool) : Bool :=
  match t with
  | .pressed => true
  | .released => false
  | .unchanged => held

/-- The greatest index with a `Pressed` entry (R264), keys enumerated from 0, each press replacing the one
before it. -/
def highestPressed (tr : Vector KeyTransition 16) : Option (Fin 16) :=
  (List.finRange 16).foldl (fun best k => if tr[k] = .pressed then some k else best) none

/-- `setKeys(tr)`: the key flags (R263). -/
def State.updateKeys (tr : Vector KeyTransition 16) (s : State) : State :=
  { s with keys := Vector.ofFn fun k : Fin 16 => keyAfter tr[k] s.keys[k] }

/-- `setKeys(tr)`: the resolution of a pending wait (R264). -/
def State.resolveWait (tr : Vector KeyTransition 16) (s : State) : State :=
  match s.keyWait, highestPressed tr with
  | some r, some k => { s with keyWait := none }.setV r (BitVec.ofNat 8 k.val)
  | some _, none => s
  | none, _ => s

/-- `setKeys(tr)` (R263, R264). -/
def State.setKeys (tr : Vector KeyTransition 16) (s : State) : State := (s.updateKeys tr).resolveWait tr

/-- `displaySnapshot()` (R266): the content `(x, y) -> disp[y][x]`, no packing. -/
def State.displaySnapshot (s : State) (x : Fin 64) (y : Fin 32) : Bool := s.disp.pixel x.val y.val

/-- The same as the row-major sequence of 2048 bits, pixel `(x, y)` at index `y * 64 + x` (R266). -/
def State.displayBits (s : State) : List Bool :=
  (List.range (Config.displayH * Config.displayW)).map fun k =>
    s.disp.pixel (k % Config.displayW) (k / Config.displayW)

/-- `soundActive()` (R267). -/
def State.soundActive (s : State) : Bool := s.st != 0

/-- The report of a step (R129, 60_exceptions.md R291). -/
def stepReport (s : State) : StepReport :=
  match s.keyWait with
  | some _ => .blocked
  | none =>
    match step s with
    | .next t => .executed t
    | .fault f => .fault f
    | .refused r => .refused r

/-- MachineState after a step: a step that ends in a fault leaves it as it was (60_exceptions.md R293, R295). -/
def stateAfterStep (s : State) : State :=
  match step s with
  | .next t => t
  | .fault _ => s
  | .refused _ => s

/-- One operation as a transition; the two observers change nothing (R266, R267). -/
def State.apply (o : HostOp) (s : State) : Host.Outcome State Fault Refusal :=
  match o with
  | .reset => .next s.hostReset
  | .load bytes => s.load bytes
  | .setKeys tr => .next (s.setKeys tr)
  | .step => step s
  | .displaySnapshot => .next s
  | .soundActive => .next s

/-- A run: the operations in the order the host issues them. A run in which an operation faults or is refused
has gone wrong from there (60_exceptions.md R296). -/
def State.run : List HostOp → State → Host.Outcome State Fault Refusal
  | [], s => .next s
  | o :: os, s =>
    match s.apply o with
    | .next t => State.run os t
    | .fault f => .fault f
    | .refused r => .refused r

end Sys2Proof.Machine
end

