-- ==== Sys2Proof/Safety.lean ====
section
/-! DEFINITION. The terms claims are stated in: the invariant of the machine, when an instruction can advance, and
what an instruction leaves unchanged. -/

namespace Sys2Proof.Machine

/-- Saved return addresses are even and at most `MEM_SIZE`: a slot below `sp` holds the `pc + 2` of a `CALL`
(10_state.md R28, 42_control_flow.md R172). -/
abbrev State.StackOk (s : State) : Prop :=
  ∀ k : Fin Config.stackDepth, k.val < s.sp.val → s.stack[k].toNat % 2 = 0 ∧ s.stack[k].toNat ≤ Config.memSize

/-- The invariant: the pc is even and inside memory (10_state.md R25, R41), saved return addresses are legal, and
memory has its canonical form. The other bounds of R41 are bounds of the field types. -/
abbrev State.Inv (s : State) : Prop := PcOk s.pc ∧ s.StackOk ∧ s.mem.wf

/-- The pc may move to the next instruction: it is even and not at the last word (40_step_and_dispatch.md
R128). -/
abbrev State.CanAdvance (s : State) : Prop := s.pc.toNat % 2 = 0 ∧ s.pc.toNat + 2 ≤ Config.memSize - 2

/-- The pc may move past the next instruction. -/
abbrev State.CanSkip (s : State) : Prop := s.pc.toNat % 2 = 0 ∧ s.pc.toNat + 4 ≤ Config.memSize - 2

/-- The pc is at the last word of memory, `MEM_SIZE - 2`. -/
abbrev State.AtLastWord (s : State) : Prop := s.pc.toNat = Config.memSize - 2

/-- What an instruction may change besides the pc; anything not named stays. -/
structure Touches where
  /-- destination registers -/
  regs : List RegIdx := []
  index : Bool := false
  /-- the stack and its pointer -/
  stack : Bool := false
  disp : Bool := false
  dt : Bool := false
  st : Bool := false
  keyWait : Bool := false
  draws : Bool := false
  /-- the first address stored to and the number of bytes stored -/
  store : Nat × Nat := (0, 0)

/-- Everything `w` does not name is the same in `t` as in `s`; the key flags always are, since no instruction
writes them (10_state.md R32). Memory is compared through the read of one byte. -/
def Frame (w : Touches) (s t : State) : Prop :=
  (∀ r : RegIdx, r ∉ w.regs → t.getV r = s.getV r) ∧
  (w.index = false → t.index = s.index) ∧
  (w.stack = false → t.stack = s.stack ∧ t.sp = s.sp) ∧
  (w.disp = false → t.disp = s.disp) ∧
  (w.dt = false → t.dt = s.dt) ∧
  (w.st = false → t.st = s.st) ∧
  (w.keyWait = false → t.keyWait = s.keyWait) ∧
  (w.draws = false → t.draws = s.draws) ∧
  t.keys = s.keys ∧
  ∀ a : Nat, (a < w.store.1 ∨ w.store.1 + w.store.2 ≤ a) → t.mem.read a = s.mem.read a

/-- A conditional skip (40_step_and_dispatch.md R128): under `pre`, the instruction moves over the next one where
`cond` holds and to the next one where it does not, changing nothing but the pc, and where that pc would leave
memory it faults instead. -/
def SkipsWhen (i : Instr) (pre cond : State → Prop) : Prop :=
  ∀ s : State, pre s →
    (cond s → s.CanSkip → exec i s = .next { s with pc := s.pc + 4 }) ∧
    (¬ cond s → s.CanAdvance → exec i s = .next { s with pc := s.pc + 2 }) ∧
    (cond s → Config.memSize - 2 < s.pc.toNat + 4 → exec i s = .fault (.pcOutOfBounds (encode i) s.pc)) ∧
    (¬ cond s → Config.memSize - 2 < s.pc.toNat + 2 → exec i s = .fault (.pcOutOfBounds (encode i) s.pc))

/-- The bit that a sprite of `n` rows, drawn from the start position `(x0, y0)`, puts on the pixel in column `px`,
row `py` (44_display.md R222 to R224): bit 7 of a row is its leftmost. False where the sprite does not reach. -/
def spriteBitAt (row : Nat → Byte) (x0 y0 n px py : Nat) : Bool :=
  decide (x0 ≤ px ∧ px < x0 + 8 ∧ y0 ≤ py ∧ py < y0 + n) && (row (py - y0)).getLsbD (7 - (px - x0))

/-- The same for the sprite of `n` rows at `I`, drawn from `(V[x] mod 64, V[y] mod 32)` (R222, R224). -/
def State.spriteBit (s : State) (x y : RegIdx) (n px py : Nat) : Bool :=
  spriteBitAt (fun r => s.mem.read (s.index.toNat + r)) ((s.getV x).toNat % 64) ((s.getV y).toNat % 32) n px py

end Sys2Proof.Machine
end

