-- ==== Sys2Proof/Certificates/Slice0/Obligations.lean ====
section
/-! DEFINITION. The statements for the provers, from the numbered rules of spec/. Each docstring names what it
formalises. `Frame w s t` says that everything `w` does not name is unchanged, the pc apart. -/

open Sys2Proof Sys2Proof.Machine

/-! ## Encoding (30_encoding.md) -/

/-- The decoder reads back every well-formed instruction from its word, every operand at every value. -/
def Obligations.DecodeOfEncodeIsTheInstruction : Prop :=
  ∀ i : Instr, i.wellFormed = true → decodeWord (encode i) = .ok i

/-- A word that decodes is the word of the instruction it decodes to, and that instruction is well-formed: no bit of
a word is dropped. -/
def Obligations.EncodeOfDecodeIsTheWord : Prop :=
  ∀ (w : Word) (i : Instr), decodeWord w = .ok i → i.wellFormed = true ∧ encode i = w

/-- R94: the decoder answers the first row, in the order written, that covers the word, and rejects a word no row
covers; rows overlap only where the third row, 0NNN, meets one of the two exact rows. -/
def Obligations.DecoderFollowsTheOpcodeTable : Prop :=
  (∀ (w : Word) (i : Instr), decodeWord w = .ok i → firstRow w = some i.rowIndex) ∧
  (∀ (w : Word) (r : Reject), decodeWord w = .error r → firstRow w = none) ∧
  (∀ (w : Word) (j k : Nat) (a b : OpcodeRow), opcodeTable[j]? = some a → opcodeTable[k]? = some b → j < k →
    a.covers w = true → b.covers w = true → k = 2)

/-- R97, R98: exactly these words are rejected, each by its name, and a running machine that fetches one faults with
the word and its address. -/
def Obligations.RejectedWordsAreThoseOfTheSpec : Prop :=
  ∀ w : Word,
    (decodeWord w = .error .decodeError ↔
      (opG w = 0x8 ∧ opN w ∈ [0x8#4, 0x9#4, 0xA#4, 0xB#4, 0xC#4, 0xD#4, 0xF#4]) ∨
      (opG w = 0xE ∧ opNN w ∉ [0x9E#8, 0xA1#8]) ∨
      (opG w = 0xF ∧
        opNN w ∉ [0x07#8, 0x0A#8, 0x15#8, 0x18#8, 0x1E#8, 0x29#8, 0x33#8, 0x55#8, 0x65#8])) ∧
    (decodeWord w = .error .malformedEncoding ↔ (opG w = 0x5 ∨ opG w = 0x9) ∧ opN w ≠ 0) ∧
    (∀ s : State, s.keyWait = none → PcOk s.pc → s.fetchWord = w →
      (decodeWord w = .error .decodeError → step s = .fault (.decodeError w s.pc)) ∧
      (decodeWord w = .error .malformedEncoding → step s = .fault (.malformedEncoding w s.pc)))

/-- R99, R181: every word of group 0 but 00E0 and 00EE is `SYS`; executing `SYS` always is the fault
UnsupportedNative, and so is the step that fetches such a word. -/
def Obligations.NativeCallsAlwaysFault : Prop :=
  (∀ (nnn : Imm12) (s : State), exec (.sys nnn) s = .fault (.unsupportedNative (encode (.sys nnn)) s.pc)) ∧
  (∀ w : Word, opG w = 0 → opNNN w ≠ 0x0E0 → opNNN w ≠ 0x0EE →
    decodeWord w = .ok (.sys (opNNN w)) ∧
    ∀ s : State, s.keyWait = none → PcOk s.pc → s.fetchWord = w → step s = .fault (.unsupportedNative w s.pc))

/-- Sanity: words written out from R91 and R96, one or more a family, decode to the instruction they stand for
(which sub-opcode is which is the spec's item G3 to G6, log entry 3). -/
def Obligations.SampleWordsDecodeRight : Prop :=
  decodeWord 0x00E0 = .ok .cls ∧ decodeWord 0x2300 = .ok (.call 0x300) ∧
  decodeWord 0x8AB4 = .ok (.addReg 0xA 0xB) ∧ decodeWord 0xA2F0 = .ok (.ldI 0x2F0) ∧
  decodeWord 0xD125 = .ok (.drw 1 2 5) ∧ decodeWord 0xE39E = .ok (.skp 3) ∧ decodeWord 0xF30A = .ok (.ldVxK 3) ∧
  decodeWord 0xF255 = .ok (.ldMemVx 2)

/-! ## The step cycle (40_step_and_dispatch.md) -/

/-- R124: the fetched word is the two bytes at the pc, high byte first; where the pc invariant holds both bytes
exist. -/
def Obligations.FetchIsBigEndianAndInsideMemory : Prop :=
  ∀ s : State,
    s.fetchWord.toNat = 256 * (s.mem.read s.pc.toNat).toNat + (s.mem.read (s.pc.toNat + 1)).toNat ∧
    (PcOk s.pc → s.pc.toNat + 1 < Config.memSize)

/-- R122, R125: a running step is the meaning of the decoded instruction in the state with both timers decremented,
floored at 0; a word that is no instruction ends the step in its fault, with the word and the pc. -/
def Obligations.StepRunsTheDecodedInstruction : Prop :=
  ∀ s : State, s.keyWait = none → PcOk s.pc →
    (∀ i : Instr, decodeWord s.fetchWord = .ok i →
      step s = exec i { s with dt := BitVec.ofNat 8 (s.dt.toNat - 1), st := BitVec.ofNat 8 (s.st.toNat - 1) }) ∧
    (decodeWord s.fetchWord = .error .decodeError → step s = .fault (.decodeError s.fetchWord s.pc)) ∧
    (decodeWord s.fetchWord = .error .malformedEncoding → step s = .fault (.malformedEncoding s.fetchWord s.pc))

/-- R121: a step of a waiting machine changes nothing at all and reports `Blocked`; of all operations only `setKeys`
and `reset` end a wait. -/
def Obligations.BlockedStepChangesNothing : Prop :=
  (∀ (s : State) (r : RegIdx), s.keyWait = some r → step s = .next s ∧ stepReport s = .blocked) ∧
  (∀ (s t : State) (r : RegIdx) (o : HostOp), s.keyWait = some r → s.apply o = .next t → t.keyWait = none →
    o = .reset ∨ ∃ tr, o = .setKeys tr)

/-- A faulting step leaves the whole state, timers and pc included, reports the fault, and the next step meets the
same fault (R126, R293, R295; that this holds for every cause and for the timers is the spec's decision D11). -/
def Obligations.FaultingStepCommitsNothing : Prop :=
  ∀ (s : State) (f : Fault), step s = .fault f →
    stateAfterStep s = s ∧ stepReport s = .fault f ∧ step (stateAfterStep s) = .fault f

/-- Every fault a step reports carries the word fetched in this step and the address it was fetched from (R291; the
pair for every cause is the spec's decision D12). -/
def Obligations.FaultReportsTheFetchedWord : Prop :=
  ∀ (s : State) (f : Fault), step s = .fault f → f.op = s.fetchWord ∧ f.pc = s.pc

/-- The timer law, collected by the spec in R245: frozen by a blocked and by a faulting step, replaced by the
instruction that writes the timer, otherwise one less, floored at 0. -/
def Obligations.TimersFollowTheTimerLaw : Prop :=
  ∀ s : State,
    (s.keyWait ≠ none → (stateAfterStep s).dt = s.dt ∧ (stateAfterStep s).st = s.st) ∧
    (∀ f : Fault, step s = .fault f → (stateAfterStep s).dt = s.dt ∧ (stateAfterStep s).st = s.st) ∧
    (∀ (i : Instr) (t : State), s.keyWait = none → decodeWord s.fetchWord = .ok i → step s = .next t →
      (∀ x : RegIdx, i = .ldDtVx x → t.dt = s.getV x) ∧
      ((∀ x : RegIdx, i ≠ .ldDtVx x) → t.dt.toNat = s.dt.toNat - 1) ∧
      (∀ x : RegIdx, i = .ldStVx x → t.st = s.getV x) ∧
      ((∀ x : RegIdx, i ≠ .ldStVx x) → t.st.toNat = s.st.toNat - 1))

/-- Which instructions can raise which fault (the "raised by" column of R281, and R289): under the invariant only
`JP`, `CALL` and `JP V0` raise PcMisaligned, and no meaning raises a decode-time cause but `SYS` its own. -/
def Obligations.EachFaultHasItsInstructions : Prop :=
  ∀ (i : Instr) (s : State) (f : Fault), s.Inv → exec i s = .fault f →
    match f with
    | .decodeError _ _ => False
    | .malformedEncoding _ _ => False
    | .stackOverflow _ _ => ∃ nnn, i = .call nnn
    | .stackUnderflow _ _ => i = .ret
    | .memOutOfRange _ _ => (∃ x y n, i = .drw x y n) ∨ (∃ x, i = .ldB x ∨ i = .ldMemVx x ∨ i = .ldVxMem x)
    | .unsupportedNative _ _ => ∃ nnn, i = .sys nnn
    | .pcOutOfBounds _ _ => ∀ nnn, i ≠ .sys nnn
    | .pcMisaligned _ _ => ∃ nnn, i = .jp nnn ∨ i = .call nnn ∨ i = .jpV0 nnn
    | .keyIndexOutOfRange _ _ => ∃ x, i = .skp x ∨ i = .sknp x

/-- The new pc of every instruction that answers a next state (the table of R128). -/
def Obligations.NewPcOfEveryInstruction : Prop :=
  ∀ (i : Instr) (s t : State), exec i s = .next t →
    t.pc.toNat =
      match i with
      | .jp nnn => nnn.toNat
      | .call nnn => nnn.toNat
      | .ret => (s.stack[s.sp.val - 1]?.getD 0).toNat
      | .jpV0 nnn => nnn.toNat + (s.getV 0).toNat
      | .seImm x nn => if s.getV x = nn then s.pc.toNat + 4 else s.pc.toNat + 2
      | .sneImm x nn => if s.getV x ≠ nn then s.pc.toNat + 4 else s.pc.toNat + 2
      | .seReg x y => if s.getV x = s.getV y then s.pc.toNat + 4 else s.pc.toNat + 2
      | .sneReg x y => if s.getV x ≠ s.getV y then s.pc.toNat + 4 else s.pc.toNat + 2
      | .skp x => if s.keys[(s.getV x).toNat]? = some true then s.pc.toNat + 4 else s.pc.toNat + 2
      | .sknp x => if s.keys[(s.getV x).toNat]? = some false then s.pc.toNat + 4 else s.pc.toNat + 2
      | _ => s.pc.toNat + 2

/-! ## Invariants -/

/-- From every state that meets the invariant (pc even and inside memory, saved return addresses legal, memory
canonical), a step that answers a next state answers one that meets it (R25, R41; memory's form is the model's). -/
def Obligations.StepKeepsTheInvariant : Prop :=
  ∀ s t : State, s.Inv → step s = .next t → t.Inv

/-- The reset state meets the invariant. -/
def Obligations.ResetMeetsTheInvariant : Prop := State.reset.Inv

/-- The host's three mutating operations keep the invariant (R41: "after every operation"). -/
def Obligations.HostOperationsKeepTheInvariant : Prop :=
  ∀ s : State, s.Inv →
    s.hostReset.Inv ∧ (∀ tr, (s.setKeys tr).Inv) ∧ (∀ bytes t, s.load bytes = .next t → t.Inv)

/-- Whatever operations the host issues from reset, in whatever order, every state a run arrives at meets the
invariant (R25, R260). -/
def Obligations.EveryRunMeetsTheInvariant : Prop :=
  ∀ (ops : List HostOp) (t : State), State.run ops State.reset = .next t → t.Inv

/-- Under the invariant a step is never refused: it executes, is blocked, or ends in a fault of the spec (R65,
R129). -/
def Obligations.NoStepIsRefused : Prop :=
  ∀ s : State, s.Inv → ∀ r : Refusal, step s ≠ .refused r

/-! ## Memory and who writes what -/

/-- Two canonical memories that read the same at every address are the same list: the model's representation holds
nothing but the bytes (log entry 5). -/
def Obligations.CanonicalMemoryIsItsBytes : Prop :=
  ∀ m m' : Memory, m.wf → m'.wf → (∀ a : Nat, m.read a = m'.read a) → m = m'

/-- What a bulk store has written is what a fetch from there reads in the very next state (R76, marked derived in the
spec). -/
def Obligations.StoredBytesAreFetchedAtOnce : Prop :=
  ∀ (x : RegIdx) (s t : State) (k : Nat), s.mem.wf → exec (.ldMemVx x) s = .next t → k + 1 ≤ x.toNat →
    t.pc.toNat = s.index.toNat + k →
    t.fetchWord = s.getV (BitVec.ofNat 4 k) ++ s.getV (BitVec.ofNat 4 (k + 1))

/-- Memory changes only by `LD B`, in its three bytes, and by the bulk store, in its `X + 1` bytes (R62). -/
def Obligations.OnlyStoresChangeMemory : Prop :=
  ∀ (i : Instr) (s t : State) (a : Nat), exec i s = .next t → t.mem.read a ≠ s.mem.read a →
    (∃ x, i = .ldB x ∧ s.index.toNat ≤ a ∧ a < s.index.toNat + 3) ∨
    (∃ x, i = .ldMemVx x ∧ s.index.toNat ≤ a ∧ a < s.index.toNat + (x.toNat + 1))

/-- The display is "mutated only by the clear and draw operations": of the core's instructions by `CLS` and `DRW`, of
the host's operations by `reset` alone (R33). -/
def Obligations.OnlyClsAndDrwChangeTheDisplay : Prop :=
  (∀ (i : Instr) (s t : State), exec i s = .next t → t.disp ≠ s.disp → i = .cls ∨ ∃ x y n, i = .drw x y n) ∧
  (∀ (o : HostOp) (s t : State), s.apply o = .next t → o ≠ .reset → o ≠ .step → t.disp = s.disp)

/-- The stack is written by `CALL` alone, in slot `sp`, and the stack pointer by `CALL` and `RET` alone (R28,
R29). -/
def Obligations.OnlyCallAndRetMoveTheStack : Prop :=
  ∀ (i : Instr) (s t : State), exec i s = .next t →
    (t.sp ≠ s.sp → i = .ret ∨ ∃ nnn, i = .call nnn) ∧
    (∀ k : Fin Config.stackDepth, t.stack[k] ≠ s.stack[k] → k.val = s.sp.val ∧ ∃ nnn, i = .call nnn)

/-- The index register is written by `LD I`, `ADD I` and `LD F` alone (R27, with this hardware's
QUIRK_INDEX_ADVANCE). -/
def Obligations.OnlyIndexInstructionsWriteTheIndex : Prop :=
  ∀ (i : Instr) (s t : State), exec i s = .next t → t.index ≠ s.index →
    (∃ nnn, i = .ldI nnn) ∨ (∃ x, i = .addI x ∨ i = .ldF x)

/-- No step writes a key flag, whatever it executes (R32, R130). -/
def Obligations.NoStepWritesKeyFlags : Prop :=
  ∀ s t : State, step s = .next t → t.keys = s.keys

/-- Who writes VF (R22): the seven flag writers leave 0x00 or 0x01 in it; any other instruction changes it only as
its destination register 0xF or as part of the bulk load of all registers. -/
def Obligations.FlagRegisterHasItsWriters : Prop :=
  ∀ (i : Instr) (s t : State), exec i s = .next t →
    ((∃ x y, i = .addReg x y ∨ i = .sub x y ∨ i = .subn x y ∨ i = .shr x y ∨ i = .shl x y) ∨ (∃ x y n, i = .drw x y n) →
      t.getV 0xF = 0 ∨ t.getV 0xF = 1) ∧
    (t.getV 0xF ≠ s.getV 0xF →
      (∃ x y, i = .addReg x y ∨ i = .sub x y ∨ i = .subn x y ∨ i = .shr x y ∨ i = .shl x y) ∨ (∃ x y n, i = .drw x y n) ∨
      (∃ nn, i = .ldImm 0xF nn ∨ i = .addImm 0xF nn ∨ i = .rnd 0xF nn) ∨
      (∃ y, i = .ldReg 0xF y ∨ i = .orReg 0xF y ∨ i = .andReg 0xF y ∨ i = .xorReg 0xF y) ∨
      i = .ldVxDt 0xF ∨ i = .ldVxMem 0xF)

/-! ## Arithmetic and logic (41_arith_logic.md) -/

/-- R141: `LD Vx, NN` (that group 6 is the load is the spec's item G4, log entry 3). -/
def Obligations.LoadImmediateWritesTheRegister : Prop :=
  ∀ (x : RegIdx) (nn : Byte) (s : State),
    (s.CanAdvance → ∃ t, exec (.ldImm x nn) s = .next t ∧ t.getV x = nn ∧ t.pc = s.pc + 2 ∧
      Frame { regs := [x] } s t) ∧
    (s.AtLastWord → exec (.ldImm x nn) s = .fault (.pcOutOfBounds (encode (.ldImm x nn)) s.pc))

/-- R142: `ADD Vx, NN` wraps modulo 256 and writes no flag (that group 7 is the addition is the spec's item G4). -/
def Obligations.AddImmediateWrapsWithoutFlag : Prop :=
  ∀ (x : RegIdx) (nn : Byte) (s : State),
    (s.CanAdvance → ∃ t, exec (.addImm x nn) s = .next t ∧
      (t.getV x).toNat = ((s.getV x).toNat + nn.toNat) % 256 ∧ t.pc = s.pc + 2 ∧ Frame { regs := [x] } s t) ∧
    (s.AtLastWord → exec (.addImm x nn) s = .fault (.pcOutOfBounds (encode (.addImm x nn)) s.pc))

/-- R143: `LD Vx, Vy` (which low nibble of group 8 is which operation, here and below, is the spec's item G3, log
entry 3). -/
def Obligations.CopyRegisterWritesTheDestination : Prop :=
  ∀ (x y : RegIdx) (s : State),
    (s.CanAdvance → ∃ t, exec (.ldReg x y) s = .next t ∧ t.getV x = s.getV y ∧ t.pc = s.pc + 2 ∧
      Frame { regs := [x] } s t) ∧
    (s.AtLastWord → exec (.ldReg x y) s = .fault (.pcOutOfBounds (encode (.ldReg x y)) s.pc))

/-- R144, R145, R146: `OR`, `AND`, `XOR` combine bit by bit and write no flag. -/
def Obligations.BitwiseOperationsCombineIntoTheDestination : Prop :=
  ∀ (x y : RegIdx) (s : State),
    (s.CanAdvance →
      (∃ t, exec (.orReg x y) s = .next t ∧ t.getV x = s.getV x ||| s.getV y ∧ t.pc = s.pc + 2 ∧
        Frame { regs := [x] } s t) ∧
      (∃ t, exec (.andReg x y) s = .next t ∧ t.getV x = s.getV x &&& s.getV y ∧ t.pc = s.pc + 2 ∧
        Frame { regs := [x] } s t) ∧
      (∃ t, exec (.xorReg x y) s = .next t ∧ t.getV x = s.getV x ^^^ s.getV y ∧ t.pc = s.pc + 2 ∧
        Frame { regs := [x] } s t)) ∧
    (s.AtLastWord →
      exec (.orReg x y) s = .fault (.pcOutOfBounds (encode (.orReg x y)) s.pc) ∧
      exec (.andReg x y) s = .fault (.pcOutOfBounds (encode (.andReg x y)) s.pc) ∧
      exec (.xorReg x y) s = .fault (.pcOutOfBounds (encode (.xorReg x y)) s.pc))

/-- R147: `ADD Vx, Vy` writes the sum modulo 256 and last the carry, which remains where the destination is VF. -/
def Obligations.AddRegistersWritesSumThenCarry : Prop :=
  ∀ (x y : RegIdx) (s : State),
    (s.CanAdvance → ∃ t, exec (.addReg x y) s = .next t ∧
      (x ≠ 0xF → (t.getV x).toNat = ((s.getV x).toNat + (s.getV y).toNat) % 256) ∧
      t.getV 0xF = (if 255 < (s.getV x).toNat + (s.getV y).toNat then 1 else 0) ∧
      t.pc = s.pc + 2 ∧ Frame { regs := [x, 0xF] } s t) ∧
    (s.AtLastWord → exec (.addReg x y) s = .fault (.pcOutOfBounds (encode (.addReg x y)) s.pc))

/-- R148, R150: `SUB` and `SUBN` write the difference modulo 256 and last the not-borrow flag (QUIRK_FLAG_NOT_BORROW
is true on this hardware). -/
def Obligations.SubtractionsWriteDifferenceThenNotBorrow : Prop :=
  ∀ (x y : RegIdx) (s : State),
    (s.CanAdvance →
      (∃ t, exec (.sub x y) s = .next t ∧
        (x ≠ 0xF → (t.getV x).toNat = ((s.getV x).toNat + 256 - (s.getV y).toNat) % 256) ∧
        t.getV 0xF = (if (s.getV y).toNat ≤ (s.getV x).toNat then 1 else 0) ∧
        t.pc = s.pc + 2 ∧ Frame { regs := [x, 0xF] } s t) ∧
      (∃ t, exec (.subn x y) s = .next t ∧
        (x ≠ 0xF → (t.getV x).toNat = ((s.getV y).toNat + 256 - (s.getV x).toNat) % 256) ∧
        t.getV 0xF = (if (s.getV x).toNat ≤ (s.getV y).toNat then 1 else 0) ∧
        t.pc = s.pc + 2 ∧ Frame { regs := [x, 0xF] } s t)) ∧
    (s.AtLastWord →
      exec (.sub x y) s = .fault (.pcOutOfBounds (encode (.sub x y)) s.pc) ∧
      exec (.subn x y) s = .fault (.pcOutOfBounds (encode (.subn x y)) s.pc))

/-- R149, R151: `SHR` and `SHL` shift V[Y] by one into V[X] and write last the bit shifted out (QUIRK_SHIFT_USES_VY is
true on this hardware). -/
def Obligations.ShiftsWriteResultThenBitShiftedOut : Prop :=
  ∀ (x y : RegIdx) (s : State),
    (s.CanAdvance →
      (∃ t, exec (.shr x y) s = .next t ∧
        (x ≠ 0xF → (t.getV x).toNat = (s.getV y).toNat / 2) ∧
        t.getV 0xF = (if (s.getV y).toNat % 2 = 1 then 1 else 0) ∧
        t.pc = s.pc + 2 ∧ Frame { regs := [x, 0xF] } s t) ∧
      (∃ t, exec (.shl x y) s = .next t ∧
        (x ≠ 0xF → (t.getV x).toNat = (s.getV y).toNat * 2 % 256) ∧
        t.getV 0xF = (if 128 ≤ (s.getV y).toNat then 1 else 0) ∧
        t.pc = s.pc + 2 ∧ Frame { regs := [x, 0xF] } s t)) ∧
    (s.AtLastWord →
      exec (.shr x y) s = .fault (.pcOutOfBounds (encode (.shr x y)) s.pc) ∧
      exec (.shl x y) s = .fault (.pcOutOfBounds (encode (.shl x y)) s.pc))

/-- `RND Vx, NN` leaves some byte masked with NN, whatever the draw (R152, from general knowledge in the spec, its
item G6; the draw is free, log entry 1). -/
def Obligations.RandomByteIsMasked : Prop :=
  ∀ (x : RegIdx) (nn : Byte) (s : State),
    (s.CanAdvance → ∃ (t : State) (r : Byte), exec (.rnd x nn) s = .next t ∧ t.getV x = r &&& nn ∧
      t.getV x &&& ~~~nn = 0 ∧ (nn = 0 → t.getV x = 0) ∧ t.pc = s.pc + 2 ∧
      Frame { regs := [x], draws := true } s t) ∧
    (s.AtLastWord → exec (.rnd x nn) s = .fault (.pcOutOfBounds (encode (.rnd x nn)) s.pc))

/-! ## Control flow (42_control_flow.md) -/

/-- R171: `JP NNN` goes to an even target, changing nothing else; 0xFFF is out of bounds and every other odd target
misaligned. -/
def Obligations.JumpGoesToItsTarget : Prop :=
  ∀ (nnn : Imm12) (s : State),
    decodeWord (0x1#4 ++ nnn) = .ok (.jp nnn) ∧
    (nnn.toNat % 2 = 0 → exec (.jp nnn) s = .next { s with pc := BitVec.ofNat 16 nnn.toNat }) ∧
    (nnn = 0xFFF → exec (.jp nnn) s = .fault (.pcOutOfBounds (encode (.jp nnn)) s.pc)) ∧
    (nnn.toNat % 2 = 1 → nnn ≠ 0xFFF → exec (.jp nnn) s = .fault (.pcMisaligned (encode (.jp nnn)) s.pc))

/-- `CALL NNN` saves the address of the next instruction in slot `sp`, counts it and goes to NNN; a full stack faults
whatever the target, then a bad target faults (R172; that `pc + 2` is saved is the spec's decision D5). -/
def Obligations.CallPushesTheReturnAddress : Prop :=
  ∀ (nnn : Imm12) (s : State),
    (s.sp.val < 12 → nnn.toNat % 2 = 0 → ∃ t, exec (.call nnn) s = .next t ∧
      t.pc = BitVec.ofNat 16 nnn.toNat ∧ t.sp.val = s.sp.val + 1 ∧
      (∀ k : Fin 12, k.val = s.sp.val → t.stack[k] = s.pc + 2) ∧
      (∀ k : Fin 12, k.val ≠ s.sp.val → t.stack[k] = s.stack[k]) ∧ Frame { stack := true } s t) ∧
    (s.sp.val = 12 → exec (.call nnn) s = .fault (.stackOverflow (encode (.call nnn)) s.pc)) ∧
    (s.sp.val < 12 → nnn = 0xFFF → exec (.call nnn) s = .fault (.pcOutOfBounds (encode (.call nnn)) s.pc)) ∧
    (s.sp.val < 12 → nnn.toNat % 2 = 1 → nnn ≠ 0xFFF →
      exec (.call nnn) s = .fault (.pcMisaligned (encode (.call nnn)) s.pc))

/-- `RET` goes to the address in slot `sp - 1`, uncounts it and leaves the slot; an empty stack faults, and so does a
saved address beyond the last word or, in a state no run reaches, an odd one (R173, R127; that the slot keeps its value
is the spec's decision D25). -/
def Obligations.ReturnPopsTheReturnAddress : Prop :=
  ∀ s : State,
    (s.sp.val = 0 → exec .ret s = .fault (.stackUnderflow (encode .ret) s.pc)) ∧
    (∀ k : Fin 12, s.sp.val = k.val + 1 → s.stack[k].toNat % 2 = 0 → s.stack[k].toNat ≤ 0xFFE →
      ∃ t, exec .ret s = .next t ∧ t.pc = s.stack[k] ∧ t.sp.val = k.val ∧ t.stack = s.stack ∧
        Frame { stack := true } s t) ∧
    (∀ k : Fin 12, s.sp.val = k.val + 1 → 0xFFE < s.stack[k].toNat →
      exec .ret s = .fault (.pcOutOfBounds (encode .ret) s.pc)) ∧
    (∀ k : Fin 12, s.sp.val = k.val + 1 → s.stack[k].toNat ≤ 0xFFE → s.stack[k].toNat % 2 = 1 →
      exec .ret s = .fault (.pcMisaligned (encode .ret) s.pc))

/-- R174: `JP V0, NNN` goes to the natural sum NNN + V[0], which wraps nowhere; beyond the last word it faults, and at
an odd sum. -/
def Obligations.JumpWithOffsetAddsRegisterZero : Prop :=
  ∀ (nnn : Imm12) (s : State),
    decodeWord (0xB#4 ++ nnn) = .ok (.jpV0 nnn) ∧
    (nnn.toNat + (s.getV 0).toNat ≤ 0xFFE → (nnn.toNat + (s.getV 0).toNat) % 2 = 0 →
      exec (.jpV0 nnn) s = .next { s with pc := BitVec.ofNat 16 (nnn.toNat + (s.getV 0).toNat) }) ∧
    (0xFFE < nnn.toNat + (s.getV 0).toNat →
      exec (.jpV0 nnn) s = .fault (.pcOutOfBounds (encode (.jpV0 nnn)) s.pc)) ∧
    (nnn.toNat + (s.getV 0).toNat ≤ 0xFFE → (nnn.toNat + (s.getV 0).toNat) % 2 = 1 →
      exec (.jpV0 nnn) s = .fault (.pcMisaligned (encode (.jpV0 nnn)) s.pc))

/-- `SE Vx, NN` and `SNE Vx, NN` (R175, R176; which of the two is "equal" is the spec's item G4). -/
def Obligations.ImmediateSkipsFollowTheComparison : Prop :=
  ∀ (x : RegIdx) (nn : Byte),
    SkipsWhen (.seImm x nn) (fun _ => True) (fun s => s.getV x = nn) ∧
    SkipsWhen (.sneImm x nn) (fun _ => True) (fun s => s.getV x ≠ nn)

/-- `SE Vx, Vy` and `SNE Vx, Vy` (R177, R178; which of the two is "equal" is the spec's item G4). -/
def Obligations.RegisterSkipsFollowTheComparison : Prop :=
  ∀ x y : RegIdx,
    SkipsWhen (.seReg x y) (fun _ => True) (fun s => s.getV x = s.getV y) ∧
    SkipsWhen (.sneReg x y) (fun _ => True) (fun s => s.getV x ≠ s.getV y)

/-- `SKP Vx` and `SKNP Vx` test the level of the key V[X] names; a value above 15 names none and faults, before any
test of the pc (R179, R180; the fault is the spec's decision D15, the pairing its item G4). -/
def Obligations.KeySkipsFollowTheKeyFlag : Prop :=
  ∀ x : RegIdx,
    SkipsWhen (.skp x) (fun s => (s.getV x).toNat ≤ 15) (fun s => s.keys[(s.getV x).toNat]? = some true) ∧
    SkipsWhen (.sknp x) (fun s => (s.getV x).toNat ≤ 15) (fun s => s.keys[(s.getV x).toNat]? = some false) ∧
    (∀ s : State, 15 < (s.getV x).toNat →
      exec (.skp x) s = .fault (.keyIndexOutOfRange (encode (.skp x)) s.pc) ∧
      exec (.sknp x) s = .fault (.keyIndexOutOfRange (encode (.sknp x)) s.pc))

/-! ## Memory and index (43_memory_index.md) -/

/-- R201: `LD I, NNN`. -/
def Obligations.LoadIndexWritesTheIndex : Prop :=
  ∀ (nnn : Imm12) (s : State),
    decodeWord (0xA#4 ++ nnn) = .ok (.ldI nnn) ∧
    (s.CanAdvance →
      exec (.ldI nnn) s = .next { s with index := BitVec.ofNat 16 nnn.toNat, pc := s.pc + 2 }) ∧
    (s.AtLastWord → exec (.ldI nnn) s = .fault (.pcOutOfBounds (encode (.ldI nnn)) s.pc))

/-- R202: `ADD I, Vx` wraps modulo 65536, writes no flag and is not held inside memory. -/
def Obligations.AddIndexWrapsAtSixteenBits : Prop :=
  ∀ (x : RegIdx) (s : State),
    decodeWord (0xF#4 ++ x ++ 0x1E#8) = .ok (.addI x) ∧
    (s.CanAdvance →
      exec (.addI x) s =
        .next { s with index := BitVec.ofNat 16 ((s.index.toNat + (s.getV x).toNat) % 65536), pc := s.pc + 2 }) ∧
    (s.AtLastWord → exec (.addI x) s = .fault (.pcOutOfBounds (encode (.addI x)) s.pc))

/-- `LD F, Vx` points I at the five bytes of the glyph the low nibble names (R203; the low nibble is the spec's
decision D8, FONT_BASE its decision D6). -/
def Obligations.LoadFontSelectsTheGlyph : Prop :=
  ∀ (x : RegIdx) (s : State),
    (s.CanAdvance →
      exec (.ldF x) s =
        .next { s with index := BitVec.ofNat 16 (Config.fontBase + 5 * ((s.getV x).toNat % 16)), pc := s.pc + 2 }) ∧
    (s.AtLastWord → exec (.ldF x) s = .fault (.pcOutOfBounds (encode (.ldF x)) s.pc))

/-- R204: `LD B, Vx` stores the three decimal digits at I, I+1, I+2; out of range it stores nothing and faults,
wherever the pc is (the range test is the spec's decision D9, log entry 16). -/
def Obligations.DecimalDigitsAreStored : Prop :=
  ∀ (x : RegIdx) (s : State),
    decodeWord (0xF#4 ++ x ++ 0x33#8) = .ok (.ldB x) ∧
    (s.mem.wf → s.CanAdvance → s.index.toNat + 3 ≤ Config.memSize → ∃ t, exec (.ldB x) s = .next t ∧
      (t.mem.read s.index.toNat).toNat = (s.getV x).toNat / 100 ∧
      (t.mem.read (s.index.toNat + 1)).toNat = (s.getV x).toNat / 10 % 10 ∧
      (t.mem.read (s.index.toNat + 2)).toNat = (s.getV x).toNat % 10 ∧
      t.pc = s.pc + 2 ∧ Frame { store := (s.index.toNat, 3) } s t) ∧
    (Config.memSize < s.index.toNat + 3 → exec (.ldB x) s = .fault (.memOutOfRange (encode (.ldB x)) s.pc)) ∧
    (s.index.toNat + 3 ≤ Config.memSize → s.AtLastWord →
      exec (.ldB x) s = .fault (.pcOutOfBounds (encode (.ldB x)) s.pc))

/-- `LD [I], Vx` stores V[0] to V[X] at I upward and leaves I (R205, with this hardware's QUIRK_INDEX_ADVANCE, decision
D21); out of range it stores nothing and faults, wherever the pc is (decision D9, log entry 16). -/
def Obligations.BulkStoreWritesTheRegisters : Prop :=
  ∀ (x : RegIdx) (s : State),
    (s.mem.wf → s.CanAdvance → s.index.toNat + (x.toNat + 1) ≤ Config.memSize →
      ∃ t, exec (.ldMemVx x) s = .next t ∧
        (∀ k : RegIdx, k.toNat ≤ x.toNat → t.mem.read (s.index.toNat + k.toNat) = s.getV k) ∧
        t.pc = s.pc + 2 ∧ Frame { store := (s.index.toNat, x.toNat + 1) } s t) ∧
    (Config.memSize < s.index.toNat + (x.toNat + 1) →
      exec (.ldMemVx x) s = .fault (.memOutOfRange (encode (.ldMemVx x)) s.pc)) ∧
    (s.index.toNat + (x.toNat + 1) ≤ Config.memSize → s.AtLastWord →
      exec (.ldMemVx x) s = .fault (.pcOutOfBounds (encode (.ldMemVx x)) s.pc))

/-- R206: `LD Vx, [I]` loads V[0] to V[X] from I upward and leaves I and memory (with this hardware's
QUIRK_INDEX_ADVANCE, decision D21); out of range it loads nothing and faults, wherever the pc is (decision D9, log entry
16). -/
def Obligations.BulkLoadReadsTheRegisters : Prop :=
  ∀ (x : RegIdx) (s : State),
    decodeWord (0xF#4 ++ x ++ 0x65#8) = .ok (.ldVxMem x) ∧
    (s.CanAdvance → s.index.toNat + (x.toNat + 1) ≤ Config.memSize → ∃ t, exec (.ldVxMem x) s = .next t ∧
      (∀ k : RegIdx, k.toNat ≤ x.toNat → t.getV k = s.mem.read (s.index.toNat + k.toNat)) ∧
      t.pc = s.pc + 2 ∧ Frame { regs := (List.range (x.toNat + 1)).map (BitVec.ofNat 4) } s t) ∧
    (Config.memSize < s.index.toNat + (x.toNat + 1) →
      exec (.ldVxMem x) s = .fault (.memOutOfRange (encode (.ldVxMem x)) s.pc)) ∧
    (s.index.toNat + (x.toNat + 1) ≤ Config.memSize → s.AtLastWord →
      exec (.ldVxMem x) s = .fault (.pcOutOfBounds (encode (.ldVxMem x)) s.pc))

/-! ## Display (44_display.md) -/

/-- R221: `CLS` clears every pixel and writes nothing else. -/
def Obligations.ClearScreenClearsEveryPixel : Prop :=
  ∀ s : State,
    decodeWord 0x00E0 = .ok .cls ∧
    (s.CanAdvance → ∃ t, exec .cls s = .next t ∧ (∀ x < 64, ∀ y < 32, t.disp.pixel x y = false) ∧
      t.pc = s.pc + 2 ∧ Frame { disp := true } s t) ∧
    (s.AtLastWord → exec .cls s = .fault (.pcOutOfBounds (encode .cls) s.pc))

/-- `DRW Vx, Vy, N` XORs the sprite onto the pixels it reaches, clipped at the edges, and writes last the collision
flag (R222, R224, R225, R227; that bit 7 is leftmost is the spec's decision D19). With N = 0 nothing is drawn and the
flag is 0. -/
def Obligations.DrawXorsTheSpriteAndReportsCollision : Prop :=
  ∀ (x y : RegIdx) (n : Nibble) (s : State), s.CanAdvance →
    (n.toNat = 0 ∨ s.index.toNat + n.toNat ≤ Config.memSize) →
    ∃ t, exec (.drw x y n) s = .next t ∧
      (∀ px < 64, ∀ py < 32,
        t.disp.pixel px py = Bool.xor (s.disp.pixel px py) (s.spriteBit x y n.toNat px py)) ∧
      ((∃ px < 64, ∃ py < 32, s.disp.pixel px py = true ∧ s.spriteBit x y n.toNat px py = true) →
        t.getV 0xF = 1) ∧
      ((∀ px < 64, ∀ py < 32, s.disp.pixel px py = true → s.spriteBit x y n.toNat px py = false) →
        t.getV 0xF = 0) ∧
      t.pc = s.pc + 2 ∧ Frame { regs := [0xF], disp := true } s t

/-- `DRW` faults when any of its N bytes lies outside memory, clipped rows included and wherever the pc is, and else
at the last word (R226; the extent of the test is the spec's decision D9). -/
def Obligations.DrawTestsItsWholeRange : Prop :=
  ∀ (x y : RegIdx) (n : Nibble) (s : State),
    (0 < n.toNat → Config.memSize < s.index.toNat + n.toNat →
      exec (.drw x y n) s = .fault (.memOutOfRange (encode (.drw x y n)) s.pc)) ∧
    ((n.toNat = 0 ∨ s.index.toNat + n.toNat ≤ Config.memSize) → s.AtLastWord →
      exec (.drw x y n) s = .fault (.pcOutOfBounds (encode (.drw x y n)) s.pc))

/-! ## Timers and input (45_timer_input.md) -/

/-- `LD Vx, DT` reads, `LD DT, Vx` and `LD ST, Vx` write a timer (R241, R243, R244; which of the three patterns does
which is the spec's item G5). The timers a meaning sees are already decremented. -/
def Obligations.TimerInstructionsReadAndWriteTheTimers : Prop :=
  ∀ (x : RegIdx) (s : State),
    (s.CanAdvance →
      (∃ t, exec (.ldVxDt x) s = .next t ∧ t.getV x = s.dt ∧ t.pc = s.pc + 2 ∧ Frame { regs := [x] } s t) ∧
      exec (.ldDtVx x) s = .next { s with dt := s.getV x, pc := s.pc + 2 } ∧
      exec (.ldStVx x) s = .next { s with st := s.getV x, pc := s.pc + 2 }) ∧
    (s.AtLastWord →
      exec (.ldVxDt x) s = .fault (.pcOutOfBounds (encode (.ldVxDt x)) s.pc) ∧
      exec (.ldDtVx x) s = .fault (.pcOutOfBounds (encode (.ldDtVx x)) s.pc) ∧
      exec (.ldStVx x) s = .fault (.pcOutOfBounds (encode (.ldStVx x)) s.pc))

/-- R242: `LD Vx, K` sets the latch with its register, moves the pc past itself and writes nothing else. -/
def Obligations.WaitForKeySetsTheLatch : Prop :=
  ∀ (x : RegIdx) (s : State),
    decodeWord (0xF#4 ++ x ++ 0x0A#8) = .ok (.ldVxK x) ∧
    (s.CanAdvance → exec (.ldVxK x) s = .next { s with keyWait := some x, pc := s.pc + 2 }) ∧
    (s.AtLastWord → exec (.ldVxK x) s = .fault (.pcOutOfBounds (encode (.ldVxK x)) s.pc))

/-- The transition table of the input latch (R240), row by row: the state after, and the effect. That a faulting step has
none is the spec's decision D11, that the highest pressed index is written its decision D17 (log entry 16); that `reset`
keeps the counter of draws is the model's choice (DESIGN CHOICE, log entry 2) and no rule's. -/
def Obligations.InputLatchFollowsItsTable : Prop :=
  (∀ (s t : State) (i : Instr), s.keyWait = none → decodeWord s.fetchWord = .ok i → step s = .next t →
    (∀ x, i = .ldVxK x → t = { s with
      dt := BitVec.ofNat 8 (s.dt.toNat - 1), st := BitVec.ofNat 8 (s.st.toNat - 1)
      keyWait := some x, pc := s.pc + 2 }) ∧
    ((∀ x, i ≠ .ldVxK x) → t.keyWait = none)) ∧
  (∀ (s : State) (f : Fault), step s = .fault f → s.keyWait = none ∧ stateAfterStep s = s) ∧
  (∀ (s : State) (tr : Vector KeyTransition 16) (j : Fin 16), (s.setKeys tr).keys[j] = keyAfter tr[j] s.keys[j]) ∧
  (∀ (s : State) (tr : Vector KeyTransition 16), s.keyWait = none →
    s.setKeys tr = { s with keys := (s.setKeys tr).keys }) ∧
  (∀ (s : State) (r : RegIdx), s.keyWait = some r → stateAfterStep s = s) ∧
  (∀ (s : State) (r : RegIdx) (tr : Vector KeyTransition 16), s.keyWait = some r →
    (∀ k : Fin 16, tr[k] ≠ .pressed) → s.setKeys tr = { s with keys := (s.setKeys tr).keys }) ∧
  (∀ (s : State) (r : RegIdx) (tr : Vector KeyTransition 16) (k : Fin 16), s.keyWait = some r →
    tr[k] = .pressed → (∀ j : Fin 16, k < j → tr[j] ≠ .pressed) →
    s.setKeys tr = { s with
      v := s.v.set r.toNat (BitVec.ofNat 8 k.val), keys := (s.setKeys tr).keys, keyWait := none }) ∧
  (∀ s : State, s.hostReset = { State.reset with draws := s.draws }) ∧
  (∀ (s t : State) (bytes : List Byte), s.load bytes = .next t → t = { s with mem := t.mem })

/-! ## Host operations (46_host_interface.md) -/

/-- R263: `setKeys` applies each key's own transition to its flag. -/
def Obligations.SetKeysAppliesEachTransition : Prop :=
  ∀ (s : State) (tr : Vector KeyTransition 16) (k : Fin 16),
    (tr[k] = .pressed → (s.setKeys tr).keys[k] = true) ∧
    (tr[k] = .released → (s.setKeys tr).keys[k] = false) ∧
    (tr[k] = .unchanged → (s.setKeys tr).keys[k] = s.keys[k])

/-- `setKeys` ends a wait with the greatest index pressed, in the latched register, and touches no other register, no
memory, timer, pixel or pc; without a press, or without a wait, no register changes (R264; the tie-break is the spec's
decision D17). -/
def Obligations.SetKeysEndsAWaitWithTheHighestKey : Prop :=
  ∀ (s : State) (tr : Vector KeyTransition 16),
    (∀ (r : RegIdx) (k : Fin 16), s.keyWait = some r → tr[k] = .pressed →
      (∀ j : Fin 16, k < j → tr[j] ≠ .pressed) →
      (s.setKeys tr).getV r = BitVec.ofNat 8 k.val ∧
      (∀ q : RegIdx, q ≠ r → (s.setKeys tr).getV q = s.getV q) ∧
      s.setKeys tr = { s with v := (s.setKeys tr).v, keys := (s.setKeys tr).keys, keyWait := none }) ∧
    ((s.keyWait = none ∨ ∀ k : Fin 16, tr[k] ≠ .pressed) →
      s.setKeys tr = { s with keys := (s.setKeys tr).keys })

/-- R38 (and R261): what `reset` leaves, whatever the state was, is the reset table; memory holds the font table and
zeros. The reset state itself is the same. Named by the parameters FONT and FONT_BASE, whatever their values (the
spec's item G1 and decision D6). The draws already consumed stay counted (the model's own field, log entry 2). -/
def Obligations.ResetLeavesTheResetTable : Prop :=
  ∀ s t : State, (t = s.hostReset ∨ t = State.reset) →
    (∀ r : RegIdx, t.getV r = 0) ∧ t.index = 0 ∧ t.pc = 0x0200 ∧ t.sp = 0 ∧
    (∀ k : Fin 12, t.stack[k] = 0) ∧
    (∀ j < 80, t.mem.read (Config.fontBase + j) = Config.font.getD j 0) ∧
    (∀ a < Config.memSize, (a < Config.fontBase ∨ Config.fontBase + 80 ≤ a) → t.mem.read a = 0) ∧
    (∀ x < 64, ∀ y < 32, t.disp.pixel x y = false) ∧ t.dt = 0 ∧ t.st = 0 ∧
    (∀ k : Fin 16, t.keys[k] = false) ∧ t.keyWait = none

/-- `load` copies its bytes to 0x200 upward and changes nothing else, the pc included; past its bound it is refused
(R262; the refusal is the spec's decision D23). -/
def Obligations.LoadCopiesTheImage : Prop :=
  ∀ (s : State) (bytes : List Byte),
    (s.mem.wf → bytes.length ≤ 3584 → ∃ t, s.load bytes = .next t ∧
      (∀ (j : Nat) (h : j < bytes.length), t.mem.read (0x200 + j) = bytes[j]) ∧
      t.pc = s.pc ∧ Frame { store := (0x200, bytes.length) } s t) ∧
    (3584 < bytes.length → s.load bytes = .refused (.loadTooLong bytes.length))

/-- The observers: the snapshot gives at column x, row y the current pixel of `disp`, and as the row-major sequence of
2048 bits that pixel at index y * 64 + x; the sound is active exactly while ST is not 0; neither changes the state (R266,
R267; the form of both is the spec's decisions D26, D28, log entry 16). -/
def Obligations.ObserversReportDisplayAndSound : Prop :=
  ∀ s : State,
    (∀ (x : Fin 64) (y : Fin 32), s.displaySnapshot x y = s.disp.pixel x.val y.val) ∧
    (∀ (x : Fin 64) (y : Fin 32), s.displayBits[y.val * 64 + x.val]? = some (s.disp.pixel x.val y.val)) ∧
    s.displayBits.length = 2048 ∧
    (s.soundActive = true ↔ s.st ≠ 0) ∧
    s.apply .displaySnapshot = .next s ∧ s.apply .soundActive = .next s
end

