-- ==== Sys2Proof/Laws/Decode.lean ====
section
/-! SUPPORT. The numbers of words put together from their fields as the encoder puts them, and the fields read back
from them (30_encoding.md R91). -/

namespace Sys2Proof

/-! ## Words as numbers -/

theorem toNat_nnn (g : Nibble) (nnn : Imm12) :
    BitVec.toNat (w := 16) (g ++ nnn) = g.toNat * 4096 + nnn.toNat :=
  (BitVec.toNat_append g nnn).trans (by
    rw [← Nat.shiftLeft_add_eq_or_of_lt nnn.isLt, Nat.shiftLeft_eq])

theorem toNat_xnn (g : Nibble) (x : RegIdx) (nn : Byte) :
    BitVec.toNat (w := 16) (g ++ x ++ nn) = g.toNat * 4096 + x.toNat * 256 + nn.toNat := by
  refine (BitVec.toNat_append (g ++ x) nn).trans ?_
  rw [← Nat.shiftLeft_add_eq_or_of_lt nn.isLt, Nat.shiftLeft_eq, BitVec.toNat_append,
    ← Nat.shiftLeft_add_eq_or_of_lt x.isLt, Nat.shiftLeft_eq]
  omega

theorem toNat_xyn (g : Nibble) (x y : RegIdx) (n : Nibble) :
    BitVec.toNat (w := 16) (g ++ x ++ y ++ n) = g.toNat * 4096 + x.toNat * 256 + y.toNat * 16 + n.toNat := by
  refine (BitVec.toNat_append (g ++ x ++ y) n).trans ?_
  rw [← Nat.shiftLeft_add_eq_or_of_lt n.isLt, Nat.shiftLeft_eq, BitVec.toNat_append,
    ← Nat.shiftLeft_add_eq_or_of_lt y.isLt, Nat.shiftLeft_eq, BitVec.toNat_append,
    ← Nat.shiftLeft_add_eq_or_of_lt x.isLt, Nat.shiftLeft_eq]
  omega

/-! ## Fields as numbers (00_scope.md R15) -/

theorem toNat_opG (op : Word) : (opG op).toNat = op.toNat / 4096 := by
  have := op.isLt
  simp only [opG, BitVec.extractLsb'_toNat, Nat.shiftRight_eq_div_pow]
  omega

theorem toNat_opX (op : Word) : (opX op).toNat = op.toNat / 256 % 16 := by
  simp [opX, BitVec.extractLsb'_toNat, Nat.shiftRight_eq_div_pow]

theorem toNat_opY (op : Word) : (opY op).toNat = op.toNat / 16 % 16 := by
  simp [opY, BitVec.extractLsb'_toNat, Nat.shiftRight_eq_div_pow]

theorem toNat_opN (op : Word) : (opN op).toNat = op.toNat % 16 := by
  simp [opN, BitVec.extractLsb'_toNat]

theorem toNat_opNN (op : Word) : (opNN op).toNat = op.toNat % 256 := by
  simp [opNN, BitVec.extractLsb'_toNat]

theorem toNat_opNNN (op : Word) : (opNNN op).toNat = op.toNat % 4096 := by
  simp [opNNN, BitVec.extractLsb'_toNat]

/-! ## Fields of words put together -/

section NNN
variable (g : Nibble) (nnn : Imm12)

@[simp] theorem opG_nnn : opG (g ++ nnn) = g := by
  apply BitVec.eq_of_toNat_eq
  have := nnn.isLt
  rw [toNat_opG, toNat_nnn]
  omega

@[simp] theorem opNNN_nnn : opNNN (g ++ nnn) = nnn := by
  apply BitVec.eq_of_toNat_eq
  have := nnn.isLt
  rw [toNat_opNNN, toNat_nnn]
  omega

end NNN

section XNN
variable (g : Nibble) (x : RegIdx) (nn : Byte)

@[simp] theorem opG_xnn : opG (g ++ x ++ nn) = g := by
  apply BitVec.eq_of_toNat_eq
  have := x.isLt
  have := nn.isLt
  rw [toNat_opG, toNat_xnn]
  omega

@[simp] theorem opX_xnn : opX (g ++ x ++ nn) = x := by
  apply BitVec.eq_of_toNat_eq
  have := x.isLt
  have := nn.isLt
  rw [toNat_opX, toNat_xnn]
  omega

@[simp] theorem opNN_xnn : opNN (g ++ x ++ nn) = nn := by
  apply BitVec.eq_of_toNat_eq
  have := nn.isLt
  rw [toNat_opNN, toNat_xnn]
  omega

end XNN

section XYN
variable (g : Nibble) (x y : RegIdx) (n : Nibble)

@[simp] theorem opG_xyn : opG (g ++ x ++ y ++ n) = g := by
  apply BitVec.eq_of_toNat_eq
  have := x.isLt
  have := y.isLt
  have := n.isLt
  rw [toNat_opG, toNat_xyn]
  omega

@[simp] theorem opX_xyn : opX (g ++ x ++ y ++ n) = x := by
  apply BitVec.eq_of_toNat_eq
  have := x.isLt
  have := y.isLt
  have := n.isLt
  rw [toNat_opX, toNat_xyn]
  omega

@[simp] theorem opY_xyn : opY (g ++ x ++ y ++ n) = y := by
  apply BitVec.eq_of_toNat_eq
  have := y.isLt
  have := n.isLt
  rw [toNat_opY, toNat_xyn]
  omega

@[simp] theorem opN_xyn : opN (g ++ x ++ y ++ n) = n := by
  apply BitVec.eq_of_toNat_eq
  have := n.isLt
  rw [toNat_opN, toNat_xyn]
  omega

end XYN

/-! ## Words covered by a row of the opcode table (R94) -/

theorem covers_nnn (g : Nibble) (nnn : Imm12) : OpcodeRow.covers ⟨0xF#4 ++ 0#12, g ++ 0#12⟩ (g ++ nnn) = true := by
  have h : (g ++ nnn) &&& (0xF#4 ++ 0#12) = g ++ 0#12 := by
    rw [BitVec.and_append, show g &&& 0xF#4 = g from BitVec.and_allOnes, BitVec.and_zero]
  exact beq_iff_eq.mpr h

theorem covers_xnn (g : Nibble) (x : RegIdx) (nn : Byte) :
    OpcodeRow.covers ⟨0xF#4 ++ 0#4 ++ 0#8, g ++ 0#4 ++ 0#8⟩ (g ++ x ++ nn) = true := by
  have h : (g ++ x ++ nn) &&& (0xF#4 ++ 0#4 ++ 0#8) = g ++ 0#4 ++ 0#8 := by
    rw [BitVec.and_append, BitVec.and_append, show g &&& 0xF#4 = g from BitVec.and_allOnes, BitVec.and_zero,
      BitVec.and_zero]
  exact beq_iff_eq.mpr h

theorem covers_xkk (g : Nibble) (x : RegIdx) (kk : Byte) :
    OpcodeRow.covers ⟨0xF#4 ++ 0#4 ++ 0xFF#8, g ++ 0#4 ++ kk⟩ (g ++ x ++ kk) = true := by
  have h : (g ++ x ++ kk) &&& (0xF#4 ++ 0#4 ++ 0xFF#8) = g ++ 0#4 ++ kk := by
    rw [BitVec.and_append, BitVec.and_append, show g &&& 0xF#4 = g from BitVec.and_allOnes, BitVec.and_zero,
      show kk &&& 0xFF#8 = kk from BitVec.and_allOnes]
  exact beq_iff_eq.mpr h

theorem covers_xyf (g : Nibble) (x y : RegIdx) (f : Nibble) :
    OpcodeRow.covers ⟨0xF#4 ++ 0#4 ++ 0#4 ++ 0xF#4, g ++ 0#4 ++ 0#4 ++ f⟩ (g ++ x ++ y ++ f) = true := by
  have h : (g ++ x ++ y ++ f) &&& (0xF#4 ++ 0#4 ++ 0#4 ++ 0xF#4) = g ++ 0#4 ++ 0#4 ++ f := by
    rw [BitVec.and_append, BitVec.and_append, BitVec.and_append, show g &&& 0xF#4 = g from BitVec.and_allOnes,
      BitVec.and_zero, BitVec.and_zero, show f &&& 0xF#4 = f from BitVec.and_allOnes]
  exact beq_iff_eq.mpr h

theorem covers_xyn (g : Nibble) (x y : RegIdx) (n : Nibble) :
    OpcodeRow.covers ⟨0xF#4 ++ 0#4 ++ 0#4 ++ 0#4, g ++ 0#4 ++ 0#4 ++ 0#4⟩ (g ++ x ++ y ++ n) = true := by
  have h : (g ++ x ++ y ++ n) &&& (0xF#4 ++ 0#4 ++ 0#4 ++ 0#4) = g ++ 0#4 ++ 0#4 ++ 0#4 := by
    rw [BitVec.and_append, BitVec.and_append, BitVec.and_append, show g &&& 0xF#4 = g from BitVec.and_allOnes,
      BitVec.and_zero, BitVec.and_zero, BitVec.and_zero]
  exact beq_iff_eq.mpr h

/-! ## What the decoder answers (R93) -/

/-- The group functions of the decoder, in their cases: a word decodes to one instruction of its group, or is
rejected by the name of its fault. -/
theorem decodeXY0_eq_ok {n : Nibble} {i j : Instr} : decodeXY0 n i = .ok j ↔ n = 0#4 ∧ j = i := by
  unfold decodeXY0
  split
  case isTrue h => simp [h, eq_comm]
  case isFalse h => simp [h]

end Sys2Proof
end

