-- ==== Sys2Proof/Laws/Display.lean ====
section
/-! SUPPORT. The laws of pixels: a written pixel is read back and leaves the others alone. -/

namespace Sys2Proof.Machine

theorem getLsbD_rowWithBit (row : BitVec 64) {x : Nat} (hx : x < 64) (bit : Bool) (x' : Nat) :
    (rowWithBit row x bit).getLsbD x' = if x' = x then bit else row.getLsbD x' := by
  by_cases h : x' = x
  · subst h
    cases bit <;> simp [rowWithBit, hx]
  · by_cases hx' : x' < 64
    · cases bit <;> simp_all [rowWithBit]
      all_goals omega
    · rw [BitVec.getLsbD_of_ge _ _ (by omega), if_neg h, BitVec.getLsbD_of_ge _ _ (by omega)]

/-- A pixel reads what was written to it, and the others as before (10_state.md R33). -/
theorem Display.pixel_setPixel (d : Display) {x y : Nat} (hx : x < 64) (hy : y < 32) (bit : Bool) (x' y' : Nat) :
    (d.setPixel x y bit).pixel x' y' = if x' = x ∧ y' = y then bit else d.pixel x' y' := by
  unfold Display.pixel Display.setPixel
  by_cases h : y' = y
  · subst h
    simp [hy, getLsbD_rowWithBit _ hx]
  · have h' : y ≠ y' := fun e => h e.symm
    simp [h, h']

/-- The pixels determine the display (R33). -/
theorem Display.ext_pixel {d e : Display} (h : ∀ x < 64, ∀ y < 32, d.pixel x y = e.pixel x y) : d = e := by
  apply Vector.ext
  intro y hy
  apply BitVec.eq_of_getLsbD_eq
  intro x hx
  simpa [Display.pixel, hy] using h x hx y hy

theorem blankDisplay_pixel (x y : Nat) : Display.pixel blankDisplay x y = false := by
  unfold Display.pixel blankDisplay
  by_cases h : y < 32
  · simp [h]
  · simp [h]

end Sys2Proof.Machine
end

