-- ==== Sys2Proof/Laws/Draw.lean ====
section
/-! SUPPORT. What drawing a sprite does to every pixel and to the flag: one law a level, from one sprite bit to the
whole sprite. -/
namespace Sys2Proof.Machine

/-- One sprite bit: what it does to every pixel of the screen (44_display.md R225). -/
theorem blitPixel_pixel (bit : Bool) (x : Nat) {y : Nat} (hy : y < 32) (acc : Display × Bool) {px : Nat} (py : Nat)
    (hpx : px < 64) :
    (blitPixel bit x y acc).1.pixel px py = Bool.xor (acc.1.pixel px py) (decide (px = x ∧ py = y) && bit) := by
  unfold blitPixel
  split
  case isTrue hx =>
    rw [Display.pixel_setPixel _ (by simp only [Config.displayW] at hx; omega) hy]
    by_cases h : px = x ∧ py = y
    · obtain ⟨rfl, rfl⟩ := h
      simp
    · simp [h]
  case isFalse hx =>
    have : px ≠ x := by
      simp only [Config.displayW] at hx
      omega
    simp [this]

/-- One sprite bit: when it leaves the flag set (R225). -/
theorem blitPixel_flag (bit : Bool) (x y : Nat) (acc : Display × Bool) :
    (blitPixel bit x y acc).2 = true ↔ acc.2 = true ∨ (x < 64 ∧ bit = true ∧ acc.1.pixel x y = true) := by
  unfold blitPixel
  split
  case isTrue hx =>
    have : x < 64 := by
      simp only [Config.displayW] at hx
      omega
    simp [this]
  case isFalse hx =>
    have : ¬ x < 64 := by
      simp only [Config.displayW] at hx
      omega
    simp [this]

/-- Sprite columns 0 to k-1 of a row: every pixel of the screen (R223, R224). -/
theorem blitColumns_pixel (row : Byte) (x0 : Nat) {y : Nat} (hy : y < 32) (acc : Display × Bool) {px : Nat} (py : Nat)
    (hpx : px < 64) (k : Nat) :
    (blitColumns row x0 y k acc).1.pixel px py =
      Bool.xor (acc.1.pixel px py)
        (decide (x0 ≤ px ∧ px < x0 + k ∧ py = y) && row.getLsbD (7 - (px - x0))) := by
  induction k with
  | zero =>
    have : ¬ (x0 ≤ px ∧ px < x0 + 0 ∧ py = y) := by omega
    simp only [blitColumns, this, decide_false, Bool.false_and, Bool.xor_false]
  | succ k ih =>
    rw [blitColumns, blitPixel_pixel _ _ hy _ _ hpx, ih]
    by_cases h : px = x0 + k ∧ py = y
    · obtain ⟨rfl, rfl⟩ := h
      simp
    · have : (x0 ≤ px ∧ px < x0 + (k + 1) ∧ py = y) ↔ (x0 ≤ px ∧ px < x0 + k ∧ py = y) := by omega
      simp [h, this]

/-- Sprite columns 0 to k-1 of a row: the flag (R225). -/
theorem blitColumns_flag (row : Byte) (x0 : Nat) {y : Nat} (hy : y < 32) (acc : Display × Bool) (k : Nat) :
    (blitColumns row x0 y k acc).2 = true ↔
      acc.2 = true ∨
      ∃ px < 64, x0 ≤ px ∧ px < x0 + k ∧ row.getLsbD (7 - (px - x0)) = true ∧ acc.1.pixel px y = true := by
  induction k with
  | zero =>
    simp only [blitColumns, iff_self_or]
    rintro ⟨px, h1, h2, h3, -⟩
    omega
  | succ k ih =>
    rw [blitColumns, blitPixel_flag, ih, or_assoc]
    refine or_congr_right ⟨?_, ?_⟩
    · rintro (⟨px, h1, h2, h3, h4, h5⟩ | ⟨h1, h2, h3⟩)
      · exact ⟨px, h1, h2, by omega, h4, h5⟩
      · rw [blitColumns_pixel _ _ hy _ _ h1] at h3
        refine ⟨x0 + k, h1, by omega, by omega, by simpa using h2, by simpa using h3⟩
    · rintro ⟨px, h1, h2, h3, h4, h5⟩
      by_cases h : px = x0 + k
      · subst h
        refine .inr ⟨h1, by simpa using h4, ?_⟩
        rw [blitColumns_pixel _ _ hy _ _ h1]
        simpa using h5
      · exact .inl ⟨px, h1, h2, by omega, h4, h5⟩

/-- One more row of a sprite. -/
theorem spriteBitAt_succ (row : Nat → Byte) (x0 y0 n px py : Nat) :
    spriteBitAt row x0 y0 (n + 1) px py =
      Bool.xor (spriteBitAt row x0 y0 n px py)
        (decide (x0 ≤ px ∧ px < x0 + 8 ∧ py = y0 + n) && (row n).getLsbD (7 - (px - x0))) := by
  unfold spriteBitAt
  by_cases h : py = y0 + n
  · subst h
    simp
  · have : (x0 ≤ px ∧ px < x0 + 8 ∧ y0 ≤ py ∧ py < y0 + (n + 1)) ↔ (x0 ≤ px ∧ px < x0 + 8 ∧ y0 ≤ py ∧ py < y0 + n) := by
      omega
    simp [h, this]

/-- The whole sprite: every pixel of the screen is XORed with the sprite's bit (R222 to R225). -/
theorem blitRows_pixel (row : Nat → Byte) (x0 y0 : Nat) (acc : Display × Bool) {px py : Nat}
    (hpx : px < 64) (hpy : py < 32) (n : Nat) :
    (blitRows row x0 y0 n acc).1.pixel px py = Bool.xor (acc.1.pixel px py) (spriteBitAt row x0 y0 n px py) := by
  induction n with
  | zero =>
    have : ¬ (x0 ≤ px ∧ px < x0 + 8 ∧ y0 ≤ py ∧ py < y0 + 0) := by omega
    simp only [blitRows, spriteBitAt, this, decide_false, Bool.false_and, Bool.xor_false]
  | succ n ih =>
    rw [blitRows, blitRow, spriteBitAt_succ, ← Bool.xor_assoc, ← ih]
    split
    case isTrue h => exact blitColumns_pixel _ _ (by simp only [Config.displayH] at h; omega) _ _ hpx 8
    case isFalse h =>
      have : py ≠ y0 + n := by
        simp only [Config.displayH] at h
        omega
      simp [this]

/-- The whole sprite: the flag is set exactly where some pixel that was 1 meets a sprite bit 1 (R225). -/
theorem blitRows_flag (row : Nat → Byte) (x0 y0 : Nat) (acc : Display × Bool) (n : Nat) :
    (blitRows row x0 y0 n acc).2 = true ↔
      acc.2 = true ∨
      ∃ px < 64, ∃ py < 32, acc.1.pixel px py = true ∧ spriteBitAt row x0 y0 n px py = true := by
  induction n with
  | zero =>
    simp only [blitRows, iff_self_or]
    rintro ⟨px, -, py, -, -, h⟩
    simp [spriteBitAt] at h
    omega
  | succ n ih =>
    rw [blitRows, blitRow]
    split
    case isTrue h =>
      have hy : y0 + n < 32 := by
        simp only [Config.displayH] at h
        omega
      rw [blitColumns_flag _ _ hy, ih, or_assoc]
      refine or_congr_right ⟨?_, ?_⟩
      · rintro (⟨px, h1, py, h2, h3, h4⟩ | ⟨px, h1, h2, h3, h4, h5⟩)
        · refine ⟨px, h1, py, h2, h3, ?_⟩
          have : py ≠ y0 + n := by
            simp [spriteBitAt] at h4
            omega
          rw [spriteBitAt_succ, h4]
          simp [this]
        · rw [blitRows_pixel _ _ _ _ h1 hy] at h5
          have hb : spriteBitAt row x0 y0 n px (y0 + n) = false := by simp [spriteBitAt]
          rw [hb, Bool.xor_false] at h5
          refine ⟨px, h1, y0 + n, hy, h5, ?_⟩
          rw [spriteBitAt_succ, hb, h4]
          simp [h2, h3]
      · rintro ⟨px, h1, py, h2, h3, h4⟩
        by_cases he : py = y0 + n
        · subst he
          have hb : spriteBitAt row x0 y0 n px (y0 + n) = false := by simp [spriteBitAt]
          rw [spriteBitAt_succ, hb] at h4
          simp at h4
          refine .inr ⟨px, h1, h4.1.1, h4.1.2, h4.2, ?_⟩
          rw [blitRows_pixel _ _ _ _ h1 hy, hb, Bool.xor_false]
          exact h3
        · refine .inl ⟨px, h1, py, h2, h3, ?_⟩
          rw [spriteBitAt_succ] at h4
          simpa [he] using h4
    case isFalse h =>
      have hy : 32 ≤ y0 + n := by
        simp only [Config.displayH] at h
        omega
      rw [ih]
      refine or_congr_right (exists_congr fun px => and_congr_right fun _ => exists_congr fun py =>
        and_congr_right fun h2 => and_congr_right fun _ => ?_)
      have : py ≠ y0 + n := by omega
      rw [spriteBitAt_succ]
      simp [this]

end Sys2Proof.Machine
end

