-- ==== Sys2Proof/Laws/State.lean ====
section
/-! SUPPORT. One lemma per field per update, so that no proof unfolds a record update, and the laws of the register
accessors. -/

namespace Sys2Proof.Machine

/-! ## Writing a register -/

@[simp] theorem State.setV_index (s : State) (x : RegIdx) (b : Byte) : (s.setV x b).index = s.index := rfl
@[simp] theorem State.setV_pc (s : State) (x : RegIdx) (b : Byte) : (s.setV x b).pc = s.pc := rfl
@[simp] theorem State.setV_stack (s : State) (x : RegIdx) (b : Byte) : (s.setV x b).stack = s.stack := rfl
@[simp] theorem State.setV_sp (s : State) (x : RegIdx) (b : Byte) : (s.setV x b).sp = s.sp := rfl
@[simp] theorem State.setV_mem (s : State) (x : RegIdx) (b : Byte) : (s.setV x b).mem = s.mem := rfl
@[simp] theorem State.setV_disp (s : State) (x : RegIdx) (b : Byte) : (s.setV x b).disp = s.disp := rfl
@[simp] theorem State.setV_dt (s : State) (x : RegIdx) (b : Byte) : (s.setV x b).dt = s.dt := rfl
@[simp] theorem State.setV_st (s : State) (x : RegIdx) (b : Byte) : (s.setV x b).st = s.st := rfl
@[simp] theorem State.setV_keys (s : State) (x : RegIdx) (b : Byte) : (s.setV x b).keys = s.keys := rfl
@[simp] theorem State.setV_keyWait (s : State) (x : RegIdx) (b : Byte) : (s.setV x b).keyWait = s.keyWait := rfl
@[simp] theorem State.setV_draws (s : State) (x : RegIdx) (b : Byte) : (s.setV x b).draws = s.draws := rfl

/-! ## Writing the flag -/

@[simp] theorem State.setFlag_index (s : State) (f : Bool) : (s.setFlag f).index = s.index := rfl
@[simp] theorem State.setFlag_pc (s : State) (f : Bool) : (s.setFlag f).pc = s.pc := rfl
@[simp] theorem State.setFlag_stack (s : State) (f : Bool) : (s.setFlag f).stack = s.stack := rfl
@[simp] theorem State.setFlag_sp (s : State) (f : Bool) : (s.setFlag f).sp = s.sp := rfl
@[simp] theorem State.setFlag_mem (s : State) (f : Bool) : (s.setFlag f).mem = s.mem := rfl
@[simp] theorem State.setFlag_disp (s : State) (f : Bool) : (s.setFlag f).disp = s.disp := rfl
@[simp] theorem State.setFlag_dt (s : State) (f : Bool) : (s.setFlag f).dt = s.dt := rfl
@[simp] theorem State.setFlag_st (s : State) (f : Bool) : (s.setFlag f).st = s.st := rfl
@[simp] theorem State.setFlag_keys (s : State) (f : Bool) : (s.setFlag f).keys = s.keys := rfl
@[simp] theorem State.setFlag_keyWait (s : State) (f : Bool) : (s.setFlag f).keyWait = s.keyWait := rfl
@[simp] theorem State.setFlag_draws (s : State) (f : Bool) : (s.setFlag f).draws = s.draws := rfl

/-! ## The timer pre-decrement -/

@[simp] theorem State.tickTimers_v (s : State) : (s.tickTimers).v = s.v := rfl
@[simp] theorem State.tickTimers_index (s : State) : (s.tickTimers).index = s.index := rfl
@[simp] theorem State.tickTimers_pc (s : State) : (s.tickTimers).pc = s.pc := rfl
@[simp] theorem State.tickTimers_stack (s : State) : (s.tickTimers).stack = s.stack := rfl
@[simp] theorem State.tickTimers_sp (s : State) : (s.tickTimers).sp = s.sp := rfl
@[simp] theorem State.tickTimers_mem (s : State) : (s.tickTimers).mem = s.mem := rfl
@[simp] theorem State.tickTimers_disp (s : State) : (s.tickTimers).disp = s.disp := rfl
@[simp] theorem State.tickTimers_keys (s : State) : (s.tickTimers).keys = s.keys := rfl
@[simp] theorem State.tickTimers_keyWait (s : State) : (s.tickTimers).keyWait = s.keyWait := rfl
@[simp] theorem State.tickTimers_draws (s : State) : (s.tickTimers).draws = s.draws := rfl
@[simp] theorem State.tickTimers_dt (s : State) : s.tickTimers.dt = decrement s.dt := rfl
@[simp] theorem State.tickTimers_st (s : State) : s.tickTimers.st = decrement s.st := rfl

/-! ## The key flags of setKeys -/

@[simp] theorem State.updateKeys_v (s : State) (tr : Vector KeyTransition 16) : (s.updateKeys tr).v = s.v := by
  simp only [State.updateKeys]
@[simp] theorem State.updateKeys_index (s : State) (tr : Vector KeyTransition 16) : (s.updateKeys tr).index = s.index := by
  simp only [State.updateKeys]
@[simp] theorem State.updateKeys_pc (s : State) (tr : Vector KeyTransition 16) : (s.updateKeys tr).pc = s.pc := by
  simp only [State.updateKeys]
@[simp] theorem State.updateKeys_stack (s : State) (tr : Vector KeyTransition 16) : (s.updateKeys tr).stack = s.stack := by
  simp only [State.updateKeys]
@[simp] theorem State.updateKeys_sp (s : State) (tr : Vector KeyTransition 16) : (s.updateKeys tr).sp = s.sp := by
  simp only [State.updateKeys]
@[simp] theorem State.updateKeys_mem (s : State) (tr : Vector KeyTransition 16) : (s.updateKeys tr).mem = s.mem := by
  simp only [State.updateKeys]
@[simp] theorem State.updateKeys_disp (s : State) (tr : Vector KeyTransition 16) : (s.updateKeys tr).disp = s.disp := by
  simp only [State.updateKeys]
@[simp] theorem State.updateKeys_dt (s : State) (tr : Vector KeyTransition 16) : (s.updateKeys tr).dt = s.dt := by
  simp only [State.updateKeys]
@[simp] theorem State.updateKeys_st (s : State) (tr : Vector KeyTransition 16) : (s.updateKeys tr).st = s.st := by
  simp only [State.updateKeys]
@[simp] theorem State.updateKeys_keyWait (s : State) (tr : Vector KeyTransition 16) : (s.updateKeys tr).keyWait = s.keyWait := by
  simp only [State.updateKeys]
@[simp] theorem State.updateKeys_draws (s : State) (tr : Vector KeyTransition 16) : (s.updateKeys tr).draws = s.draws := by
  simp only [State.updateKeys]

/-! ## The host's reset -/

@[simp] theorem State.hostReset_v (s : State) : s.hostReset.v = State.reset.v := rfl
@[simp] theorem State.hostReset_index (s : State) : s.hostReset.index = State.reset.index := rfl
@[simp] theorem State.hostReset_pc (s : State) : s.hostReset.pc = State.reset.pc := rfl
@[simp] theorem State.hostReset_stack (s : State) : s.hostReset.stack = State.reset.stack := rfl
@[simp] theorem State.hostReset_sp (s : State) : s.hostReset.sp = State.reset.sp := rfl
@[simp] theorem State.hostReset_mem (s : State) : s.hostReset.mem = State.reset.mem := rfl
@[simp] theorem State.hostReset_disp (s : State) : s.hostReset.disp = State.reset.disp := rfl
@[simp] theorem State.hostReset_dt (s : State) : s.hostReset.dt = State.reset.dt := rfl
@[simp] theorem State.hostReset_st (s : State) : s.hostReset.st = State.reset.st := rfl
@[simp] theorem State.hostReset_keys (s : State) : s.hostReset.keys = State.reset.keys := rfl
@[simp] theorem State.hostReset_keyWait (s : State) : s.hostReset.keyWait = State.reset.keyWait := rfl
@[simp] theorem State.hostReset_draws (s : State) : s.hostReset.draws = s.draws := rfl

/-! ## Registers -/

/-- A register reads what was written to it, and the others as before (10_state.md R21). -/
theorem State.getV_setV (s : State) (x y : RegIdx) (b : Byte) :
    (s.setV x b).getV y = if y = x then b else s.getV y := by
  by_cases h : y = x
  · subst h
    simp [State.getV, State.setV]
  · have h' : x.toNat ≠ y.toNat := fun e => h (BitVec.eq_of_toNat_eq e.symm)
    simp [State.getV, State.setV, h, h']

@[simp] theorem State.getV_setV_same (s : State) (x : RegIdx) (b : Byte) : (s.setV x b).getV x = b := by
  simp [State.getV_setV]

theorem State.getV_setV_of_ne (s : State) {x y : RegIdx} (b : Byte) (h : y ≠ x) :
    (s.setV x b).getV y = s.getV y := by
  simp [State.getV_setV, h]

/-- `VF` after a flag write is 0x00 or 0x01 (10_state.md R22). -/
@[simp] theorem State.getV_setFlag_vf (s : State) (f : Bool) : (s.setFlag f).getV vf = if f then 1 else 0 := by
  simp [State.setFlag]

theorem State.getV_setFlag_of_ne (s : State) (f : Bool) {y : RegIdx} (h : y ≠ vf) :
    (s.setFlag f).getV y = s.getV y :=
  State.getV_setV_of_ne s _ h

/-- A register reads the same in two states with the same register file. -/
theorem State.getV_congr {s t : State} (h : t.v = s.v) (x : RegIdx) : t.getV x = s.getV x := by
  simp [State.getV, h]

end Sys2Proof.Machine
end

