-- ==== Sys2Proof/Laws/Input.lean ====
section
/-! SUPPORT. What `setKeys` can do, said once: which key ends a wait, and the three cases of the operation. -/

namespace Sys2Proof.Machine

theorem foldl_pressed (tr : Vector KeyTransition 16) (best : Option (Fin 16)) (l : List (Fin 16)) :
    l.foldl (fun best k => if tr[k] = .pressed then some k else best) best =
      ((l.filter fun k => tr[k] = .pressed).getLast?).or best := by
  induction l generalizing best with
  | nil => rfl
  | cons k l ih =>
    rw [List.foldl_cons, ih]
    by_cases h : tr[k] = .pressed
    · rw [if_pos h, List.filter_cons_of_pos (by simpa using h), List.getLast?_cons]
      cases (l.filter fun k => decide (tr[k] = .pressed)).getLast? <;> rfl
    · rw [if_neg h, List.filter_cons_of_neg (by simpa using h)]

/-- No key is chosen exactly where none is pressed (46_host_interface.md R264). -/
theorem highestPressed_eq_none {tr : Vector KeyTransition 16} :
    highestPressed tr = none ↔ ∀ k : Fin 16, tr[k] ≠ .pressed := by
  rw [highestPressed, foldl_pressed]
  simp

theorem getLast?_of_isGreatest {l : List (Fin 16)} (hl : l.Pairwise (· < ·)) {k : Fin 16} (hk : k ∈ l)
    (hmax : ∀ j ∈ l, ¬ k < j) : l.getLast? = some k := by
  induction l with
  | nil => simp at hk
  | cons a l ih =>
    obtain ⟨ha, hl⟩ := List.pairwise_cons.mp hl
    rw [List.getLast?_cons]
    rcases List.mem_cons.mp hk with rfl | hk
    · cases l with
      | nil => rfl
      | cons b l => exact absurd (ha b (by simp)) (hmax b (by simp))
    · rw [ih hl hk fun j hj => hmax j (List.mem_cons_of_mem a hj)]
      rfl

/-- The chosen key is the pressed one above which no key is pressed (R264). -/
theorem highestPressed_eq_some {tr : Vector KeyTransition 16} {k : Fin 16} (hk : tr[k] = .pressed)
    (hmax : ∀ j : Fin 16, k < j → tr[j] ≠ .pressed) : highestPressed tr = some k := by
  rw [highestPressed, foldl_pressed, Option.or_none]
  refine getLast?_of_isGreatest ((List.pairwise_lt_finRange 16).filter _) (by simpa using hk) fun j hj hlt => ?_
  exact hmax j hlt (by simpa using hj)

/-- Without a wait, `setKeys` writes the key flags and nothing else (R263, R264). -/
theorem State.setKeys_of_running {s : State} (tr : Vector KeyTransition 16) (h : s.keyWait = none) :
    s.setKeys tr = s.updateKeys tr := by
  simp [State.setKeys, State.resolveWait, h]

/-- Nor does it without a press (R264). -/
theorem State.setKeys_of_noPress {s : State} {tr : Vector KeyTransition 16} (h : ∀ k : Fin 16, tr[k] ≠ .pressed) :
    s.setKeys tr = s.updateKeys tr := by
  simp only [State.setKeys, State.resolveWait, highestPressed_eq_none.mpr h]
  split <;> simp_all

/-- A press ends a wait (R264). -/
theorem State.setKeys_of_press {s : State} {r : RegIdx} {tr : Vector KeyTransition 16} {k : Fin 16}
    (h : s.keyWait = some r) (hk : tr[k] = .pressed) (hmax : ∀ j : Fin 16, k < j → tr[j] ≠ .pressed) :
    s.setKeys tr = ({ s.updateKeys tr with keyWait := none } : State).setV r (BitVec.ofNat 8 k.val) := by
  simp [State.setKeys, State.resolveWait, h, highestPressed_eq_some hk hmax]

end Sys2Proof.Machine
end

