-- ==== Sys2Proof/Laws/Memory.lean ====
section
/-! SUPPORT. The laws of memory: a write is read back and leaves other bytes alone, every operation keeps the
canonical form, and reset memory has it. -/

namespace Sys2Proof.Machine

/-- An address below every listed one is not listed. -/
theorem Memory.lookup_eq_none_of_lt {m : Memory} {a : Nat} (h : ∀ c ∈ m, a < c.1) : m.lookup a = none := by
  induction m with
  | nil => rfl
  | cons c rest ih =>
    have hc := h c (by simp)
    rw [Memory.lookup, if_neg (by omega)]
    exact ih fun d hd => h d (by simp [hd])

theorem Memory.read_nil (a : Nat) : Memory.read [] a = initialByte a := rfl

theorem Memory.read_cons (c : Host.Cell) (m : Memory) (a : Nat) :
    Memory.read (c :: m) a = if c.1 = a then c.2 else Memory.read m a := by
  unfold Memory.read
  rw [Memory.lookup]
  split <;> rfl

theorem Memory.read_of_lt {m : Memory} {a : Nat} (h : ∀ c ∈ m, a < c.1) : m.read a = initialByte a := by
  simp [Memory.read, Memory.lookup_eq_none_of_lt h]

theorem Memory.read_consCell {m : Memory} {a : Nat} (b : Byte) (h : ∀ c ∈ m, a < c.1) (a' : Nat) :
    Memory.read (Memory.consCell a b m) a' = if a' = a then b else m.read a' := by
  unfold Memory.consCell
  split
  case isTrue hb =>
    split
    case isTrue ha => rw [ha, Memory.read_of_lt h, hb]
    case isFalse => rfl
  case isFalse =>
    rw [Memory.read_cons]
    simp only [eq_comm]

/-- What reading gives after a cell is put into a canonical list. -/
theorem Memory.read_put {m : Memory} (hm : m.Pairwise (fun c d => c.1 < d.1)) (a : Nat) (b : Byte) (a' : Nat) :
    (m.put a b).read a' = if a' = a then b else m.read a' := by
  induction m with
  | nil => exact Memory.read_consCell b (by simp) a'
  | cons c rest ih =>
    obtain ⟨hc, hrest⟩ := List.pairwise_cons.mp hm
    unfold Memory.put
    split
    case isTrue hlt =>
      refine Memory.read_consCell b (fun d hd => ?_) a'
      rcases List.mem_cons.mp hd with rfl | hd
      · exact hlt
      · have := hc d hd
        omega
    case isFalse hge =>
      split
      case isTrue heq =>
        rw [Memory.read_consCell b (fun d hd => heq ▸ hc d hd), Memory.read_cons]
        split
        · rfl
        · rw [if_neg (by omega)]
      case isFalse hne =>
        rw [Memory.read_cons, ih hrest, Memory.read_cons]
        split
        case isTrue hca => rw [if_neg (by omega)]
        case isFalse => rfl

theorem Memory.mem_put {m : Memory} {a : Nat} {b : Byte} {d : Host.Cell} (h : d ∈ m.put a b) :
    d ∈ m ∨ (d = (a, b) ∧ b ≠ initialByte a) := by
  have key : ∀ rest : Memory, d ∈ Memory.consCell a b rest → d ∈ rest ∨ (d = (a, b) ∧ b ≠ initialByte a) := by
    intro rest hd
    unfold Memory.consCell at hd
    split at hd
    case isTrue => exact .inl hd
    case isFalse hb =>
      rcases List.mem_cons.mp hd with rfl | hd
      · exact .inr ⟨rfl, hb⟩
      · exact .inl hd
  induction m with
  | nil => exact key _ h
  | cons c rest ih =>
    unfold Memory.put at h
    split at h
    · exact key _ h
    · split at h
      · exact (key _ h).imp_left (List.mem_cons_of_mem c)
      · rcases List.mem_cons.mp h with rfl | h
        · exact .inl (by simp)
        · exact (ih h).imp_left (List.mem_cons_of_mem c)

theorem Memory.pairwise_consCell {m : Memory} {a : Nat} (b : Byte) (hm : m.Pairwise (fun c d => c.1 < d.1))
    (h : ∀ c ∈ m, a < c.1) : (Memory.consCell a b m).Pairwise (fun c d => c.1 < d.1) := by
  unfold Memory.consCell
  split
  · exact hm
  · exact List.pairwise_cons.mpr ⟨h, hm⟩

theorem Memory.pairwise_put {m : Memory} (hm : m.Pairwise (fun c d => c.1 < d.1)) (a : Nat) (b : Byte) :
    (m.put a b).Pairwise (fun c d => c.1 < d.1) := by
  induction m with
  | nil => exact Memory.pairwise_consCell b hm (by simp)
  | cons c rest ih =>
    obtain ⟨hc, hrest⟩ := List.pairwise_cons.mp hm
    unfold Memory.put
    split
    case isTrue hlt =>
      refine Memory.pairwise_consCell b hm fun d hd => ?_
      rcases List.mem_cons.mp hd with rfl | hd
      · exact hlt
      · have := hc d hd
        omega
    case isFalse hge =>
      split
      case isTrue heq => exact Memory.pairwise_consCell b hrest fun d hd => heq ▸ hc d hd
      case isFalse hne =>
        refine List.pairwise_cons.mpr ⟨fun d hd => ?_, ih hrest⟩
        rcases Memory.mem_put hd with hd | ⟨rfl, -⟩
        · exact hc d hd
        · show c.1 < a
          omega

/-- A write keeps the canonical form. -/
theorem Memory.wf_write {m : Memory} (hm : m.wf) (a : Nat) (b : Byte) : (m.write a b).wf := by
  unfold Memory.write
  split
  case isFalse => exact hm
  case isTrue ha =>
    refine ⟨Memory.pairwise_put hm.1 a b, fun c hc => ?_⟩
    rcases Memory.mem_put hc with hc | ⟨rfl, hb⟩
    · exact hm.2 c hc
    · exact ⟨ha, hb⟩

/-- What reading gives after a write (20_memory.md R69). -/
theorem Memory.read_write {m : Memory} (hm : m.wf) {a : Nat} (ha : a < Config.memSize) (b : Byte) (a' : Nat) :
    (m.write a b).read a' = if a' = a then b else m.read a' := by
  rw [Memory.write, if_pos ha]
  exact Memory.read_put hm.1 a b a'

/-- A write leaves every other byte alone, in any memory. -/
theorem Memory.read_put_of_ne (m : Memory) {a a' : Nat} (b : Byte) (h : a' ≠ a) : (m.put a b).read a' = m.read a' := by
  have key : ∀ rest : Memory, Memory.read (Memory.consCell a b rest) a' = Memory.read rest a' := by
    intro rest
    unfold Memory.consCell
    split
    · rfl
    · rw [Memory.read_cons, if_neg fun e => h e.symm]
  induction m with
  | nil => exact key []
  | cons c rest ih =>
    unfold Memory.put
    split
    · exact key _
    · split
      case isTrue heq => rw [key, Memory.read_cons, if_neg (by omega)]
      case isFalse => rw [Memory.read_cons, Memory.read_cons, ih]

theorem Memory.read_write_of_ne (m : Memory) {a a' : Nat} (b : Byte) (h : a' ≠ a) :
    (m.write a b).read a' = m.read a' := by
  unfold Memory.write
  split
  · exact Memory.read_put_of_ne m b h
  · rfl

/-- A sequence of byte writes keeps the canonical form. -/
theorem Memory.wf_writeBytes (bs : List Byte) : ∀ {m : Memory} (_ : m.wf) (a : Nat), (m.writeBytes a bs).wf := by
  induction bs with
  | nil => exact fun hm _ => hm
  | cons b bs ih => exact fun hm a => ih (Memory.wf_write hm a b) (a + 1)

/-- Bytes outside the written range read as before, in any memory. -/
theorem Memory.read_writeBytes_of_outside (bs : List Byte) : ∀ (m : Memory) {a a' : Nat},
    (a' < a ∨ a + bs.length ≤ a') → (m.writeBytes a bs).read a' = m.read a' := by
  induction bs with
  | nil => exact fun _ _ _ _ => rfl
  | cons b bs ih =>
    intro m a a' h
    simp only [List.length_cons] at h
    rw [Memory.writeBytes, ih _ (by omega), Memory.read_write_of_ne m b (by omega)]

/-- The `k`-th byte written is read at the `k`-th address. -/
theorem Memory.read_writeBytes_at (bs : List Byte) : ∀ {m : Memory} (_ : m.wf) {a k : Nat} (hk : k < bs.length),
    a + bs.length ≤ Config.memSize → (m.writeBytes a bs).read (a + k) = bs[k] := by
  induction bs with
  | nil => exact fun _ _ _ hk => absurd hk (Nat.not_lt_zero _)
  | cons b bs ih =>
    intro m hm a k hk ha
    simp only [List.length_cons] at hk ha
    rw [Memory.writeBytes]
    cases k with
    | zero =>
      rw [Memory.read_writeBytes_of_outside bs _ (by omega), Memory.read_write hm (by omega)]
      simp
    | succ k =>
      have := ih (Memory.wf_write hm a b) (a := a + 1) (k := k) (by omega) (by omega)
      rw [show a + (k + 1) = a + 1 + k by omega, this]
      rfl

/-- Reset memory has the canonical form. -/
theorem Memory.wf_reset : State.reset.mem.wf := by decide

end Sys2Proof.Machine
end

