-- ==== Sys2Proof/Laws/Ops.lean ====
section
/-! SUPPORT. What each shared operation can do, said once: the checked write of the pc, the advance, the skip, the
range test, the fatal error. -/

namespace Sys2Proof.Machine

/-- `SetPc` answers a next state exactly for an even target in bounds, and then changes the pc only
(40_step_and_dispatch.md R127). -/
theorem setPc_eq_next {i : Instr} {t : Nat} {s s' : State} :
    setPc i t s = .next s' ↔
      t ≤ Config.memSize - 2 ∧ t % 2 = 0 ∧ s' = { s with pc := BitVec.ofNat 16 t } := by
  unfold setPc raise
  split
  case isTrue h => exact ⟨nofun, fun h' => absurd h'.1 (by omega)⟩
  case isFalse h =>
    split
    case isTrue h2 => exact ⟨nofun, fun h' => absurd h'.2.1 (by omega)⟩
    case isFalse h2 =>
      constructor
      · rintro ⟨⟩
        exact ⟨by omega, by omega, rfl⟩
      · rintro ⟨-, -, rfl⟩
        rfl

/-- The two faults of `SetPc`, bounds first (R127). -/
theorem setPc_eq_fault {i : Instr} {t : Nat} {s : State} {f : Fault} :
    setPc i t s = .fault f ↔
      (Config.memSize - 2 < t ∧ f = .pcOutOfBounds (encode i) s.pc) ∨
      (t ≤ Config.memSize - 2 ∧ t % 2 = 1 ∧ f = .pcMisaligned (encode i) s.pc) := by
  unfold setPc raise
  split
  case isTrue h =>
    constructor
    · rintro ⟨⟩
      exact .inl ⟨h, rfl⟩
    · rintro (⟨-, rfl⟩ | ⟨h', -⟩)
      · rfl
      · omega
  case isFalse h =>
    split
    case isTrue h2 =>
      constructor
      · rintro ⟨⟩
        exact .inr ⟨by omega, h2, rfl⟩
      · rintro (⟨h', -⟩ | ⟨-, -, rfl⟩)
        · omega
        · rfl
    case isFalse h2 => exact ⟨nofun, by rintro (⟨h', -⟩ | ⟨-, h', -⟩) <;> omega⟩

theorem setPc_ne_refused {i : Instr} {t : Nat} {s : State} {r : Refusal} : setPc i t s ≠ .refused r := by
  unfold setPc raise
  split
  · exact nofun
  · split <;> exact nofun

/-- The target read back from the pc it was written to. -/
theorem toNat_ofNat_of_le {t : Nat} (h : t ≤ Config.memSize) : (BitVec.ofNat 16 t).toNat = t := by
  simp only [Config.memSize] at h
  simp only [BitVec.toNat_ofNat]
  omega

/-- A pc `SetPc` has written satisfies the pc invariant (10_state.md R25). -/
theorem pcOk_of_setPc {i : Instr} {t : Nat} {s s' : State} (h : setPc i t s = .next s') : PcOk s'.pc := by
  obtain ⟨hle, heven, rfl⟩ := setPc_eq_next.mp h
  have : (BitVec.ofNat 16 t).toNat = t := toNat_ofNat_of_le (by simp only [Config.memSize] at *; omega)
  exact ⟨by rw [this]; exact heven, by rw [this]; exact hle⟩

/-- An instruction that transfers no control moves to the next one wherever the pc can advance (R128). -/
theorem advance_of_canAdvance (i : Instr) {s : State} (h : s.CanAdvance) :
    advance i s = .next { s with pc := s.pc + 2 } := by
  obtain ⟨heven, hle⟩ := h
  exact setPc_eq_next.mpr ⟨hle, by omega, rfl⟩

/-- At the last word it faults (R128). -/
theorem advance_atLastWord (i : Instr) {s : State} (h : s.AtLastWord) :
    advance i s = .fault (.pcOutOfBounds (encode i) s.pc) :=
  setPc_eq_fault.mpr (.inl ⟨by simp only [State.AtLastWord, Config.memSize] at *; omega, rfl⟩)

/-- A skip whose condition holds moves over the next instruction (R128). -/
theorem skipIf_true (i : Instr) {s : State} (h : s.CanSkip) : skipIf i true s = .next { s with pc := s.pc + 4 } := by
  obtain ⟨heven, hle⟩ := h
  exact setPc_eq_next.mpr ⟨by simpa using hle, by simp; omega, rfl⟩

/-- A skip whose condition fails advances (R128). -/
theorem skipIf_false (i : Instr) (s : State) : skipIf i false s = advance i s := rfl

theorem guardRange_of_ok {i : Instr} {l : Nat} {s : State} (k : Host.Outcome State Fault Refusal)
    (h : s.rangeOk l = true) : guardRange i l s k = k := by
  simp [guardRange, h]

theorem guardRange_of_not_ok {i : Instr} {l : Nat} {s : State} (k : Host.Outcome State Fault Refusal)
    (h : s.rangeOk l = false) : guardRange i l s k = .fault (.memOutOfRange (encode i) s.pc) := by
  simp [guardRange, raise, h]

/-- What an answer behind the range test says: the test passed, or it is the range fault (20_memory.md R70). -/
theorem guardRange_eq_next {i : Instr} {l : Nat} {s s' : State} {k : Host.Outcome State Fault Refusal} :
    guardRange i l s k = .next s' ↔ s.rangeOk l = true ∧ k = .next s' := by
  unfold guardRange raise
  split
  case isTrue h => simp [h]
  case isFalse h => simp [h]

/-- The range test in numbers. -/
theorem State.rangeOk_iff {s : State} {l : Nat} :
    s.rangeOk l = true ↔ l = 0 ∨ s.index.toNat + l ≤ Config.memSize := by
  simp [State.rangeOk]

/-- What the bulk load leaves in each register (43_memory_index.md R206). -/
theorem loadRange_getElem (m : Memory) (a n : Nat) (v : Vector Byte 16) (j : Nat) (hj : j < 16) :
    (loadRange m a n v)[j] = if j < n then m.read (a + j) else v[j] := by
  induction n with
  | zero => simp [loadRange]
  | succ n ih =>
    rw [loadRange, Vector.getElem_setIfInBounds hj, ih]
    by_cases h : n = j
    · subst h
      simp
    · have : j < n + 1 ↔ j < n := by omega
      simp [h, this]

/-- The bulk store moves `X + 1` registers (43_memory_index.md R205). -/
theorem State.length_regRange (s : State) (x : RegIdx) : (s.regRange x).length = rangeLength x := by
  have := x.isLt
  simp only [State.regRange, rangeLength, List.length_take, Vector.length_toList]
  omega

theorem State.getElem_regRange (s : State) (x : RegIdx) (k : Nat) (hk : k < (s.regRange x).length) :
    (s.regRange x)[k] = s.getV (BitVec.ofNat 4 k) := by
  have hx := x.isLt
  have : k < 16 := by
    rw [State.length_regRange, rangeLength] at hk
    omega
  have hk' : (BitVec.ofNat 4 k).toNat = k := by
    simp only [BitVec.toNat_ofNat]
    omega
  simp [State.regRange, State.getV, hk']

end Sys2Proof.Machine
end

