-- ==== Sys2Proof/Laws/PerInstr.lean ====
section
/-! SUPPORT. Statements made per instruction: each instruction's word lies in the instruction's own row of the opcode
table (30_encoding.md R96). -/

namespace Sys2Proof.Laws.RowOfWord

/-- The word of a well-formed instruction is covered by the instruction's row of R96. -/
def Statement (i : Instr) : Prop :=
  i.wellFormed = true → ∃ r, opcodeTable[i.rowIndex]? = some r ∧ r.covers (encode i) = true

theorem cls : Statement .cls := fun _ => ⟨_, rfl, rfl⟩
theorem ret : Statement .ret := fun _ => ⟨_, rfl, rfl⟩
theorem sys (nnn : Imm12) : Statement (.sys nnn) := fun _ => ⟨_, rfl, covers_nnn 0x0#4 nnn⟩
theorem jp (nnn : Imm12) : Statement (.jp nnn) := fun _ => ⟨_, rfl, covers_nnn 0x1#4 nnn⟩
theorem call (nnn : Imm12) : Statement (.call nnn) := fun _ => ⟨_, rfl, covers_nnn 0x2#4 nnn⟩
theorem seImm (x : RegIdx) (nn : Byte) : Statement (.seImm x nn) := fun _ => ⟨_, rfl, covers_xnn 0x3#4 x nn⟩
theorem sneImm (x : RegIdx) (nn : Byte) : Statement (.sneImm x nn) := fun _ => ⟨_, rfl, covers_xnn 0x4#4 x nn⟩
theorem seReg (x : RegIdx) (y : RegIdx) : Statement (.seReg x y) := fun _ => ⟨_, rfl, covers_xyf 0x5#4 x y 0x0#4⟩
theorem ldImm (x : RegIdx) (nn : Byte) : Statement (.ldImm x nn) := fun _ => ⟨_, rfl, covers_xnn 0x6#4 x nn⟩
theorem addImm (x : RegIdx) (nn : Byte) : Statement (.addImm x nn) := fun _ => ⟨_, rfl, covers_xnn 0x7#4 x nn⟩
theorem ldReg (x : RegIdx) (y : RegIdx) : Statement (.ldReg x y) := fun _ => ⟨_, rfl, covers_xyf 0x8#4 x y 0x0#4⟩
theorem orReg (x : RegIdx) (y : RegIdx) : Statement (.orReg x y) := fun _ => ⟨_, rfl, covers_xyf 0x8#4 x y 0x1#4⟩
theorem andReg (x : RegIdx) (y : RegIdx) : Statement (.andReg x y) := fun _ => ⟨_, rfl, covers_xyf 0x8#4 x y 0x2#4⟩
theorem xorReg (x : RegIdx) (y : RegIdx) : Statement (.xorReg x y) := fun _ => ⟨_, rfl, covers_xyf 0x8#4 x y 0x3#4⟩
theorem addReg (x : RegIdx) (y : RegIdx) : Statement (.addReg x y) := fun _ => ⟨_, rfl, covers_xyf 0x8#4 x y 0x4#4⟩
theorem sub (x : RegIdx) (y : RegIdx) : Statement (.sub x y) := fun _ => ⟨_, rfl, covers_xyf 0x8#4 x y 0x5#4⟩
theorem shr (x : RegIdx) (y : RegIdx) : Statement (.shr x y) := fun _ => ⟨_, rfl, covers_xyf 0x8#4 x y 0x6#4⟩
theorem subn (x : RegIdx) (y : RegIdx) : Statement (.subn x y) := fun _ => ⟨_, rfl, covers_xyf 0x8#4 x y 0x7#4⟩
theorem shl (x : RegIdx) (y : RegIdx) : Statement (.shl x y) := fun _ => ⟨_, rfl, covers_xyf 0x8#4 x y 0xE#4⟩
theorem sneReg (x : RegIdx) (y : RegIdx) : Statement (.sneReg x y) := fun _ => ⟨_, rfl, covers_xyf 0x9#4 x y 0x0#4⟩
theorem ldI (nnn : Imm12) : Statement (.ldI nnn) := fun _ => ⟨_, rfl, covers_nnn 0xA#4 nnn⟩
theorem jpV0 (nnn : Imm12) : Statement (.jpV0 nnn) := fun _ => ⟨_, rfl, covers_nnn 0xB#4 nnn⟩
theorem rnd (x : RegIdx) (nn : Byte) : Statement (.rnd x nn) := fun _ => ⟨_, rfl, covers_xnn 0xC#4 x nn⟩
theorem drw (x : RegIdx) (y : RegIdx) (n : Nibble) : Statement (.drw x y n) := fun _ => ⟨_, rfl, covers_xyn 0xD#4 x y n⟩
theorem skp (x : RegIdx) : Statement (.skp x) := fun _ => ⟨_, rfl, covers_xkk 0xE#4 x 0x9E#8⟩
theorem sknp (x : RegIdx) : Statement (.sknp x) := fun _ => ⟨_, rfl, covers_xkk 0xE#4 x 0xA1#8⟩
theorem ldVxDt (x : RegIdx) : Statement (.ldVxDt x) := fun _ => ⟨_, rfl, covers_xkk 0xF#4 x 0x07#8⟩
theorem ldVxK (x : RegIdx) : Statement (.ldVxK x) := fun _ => ⟨_, rfl, covers_xkk 0xF#4 x 0x0A#8⟩
theorem ldDtVx (x : RegIdx) : Statement (.ldDtVx x) := fun _ => ⟨_, rfl, covers_xkk 0xF#4 x 0x15#8⟩
theorem ldStVx (x : RegIdx) : Statement (.ldStVx x) := fun _ => ⟨_, rfl, covers_xkk 0xF#4 x 0x18#8⟩
theorem addI (x : RegIdx) : Statement (.addI x) := fun _ => ⟨_, rfl, covers_xkk 0xF#4 x 0x1E#8⟩
theorem ldF (x : RegIdx) : Statement (.ldF x) := fun _ => ⟨_, rfl, covers_xkk 0xF#4 x 0x29#8⟩
theorem ldB (x : RegIdx) : Statement (.ldB x) := fun _ => ⟨_, rfl, covers_xkk 0xF#4 x 0x33#8⟩
theorem ldMemVx (x : RegIdx) : Statement (.ldMemVx x) := fun _ => ⟨_, rfl, covers_xkk 0xF#4 x 0x55#8⟩
theorem ldVxMem (x : RegIdx) : Statement (.ldVxMem x) := fun _ => ⟨_, rfl, covers_xkk 0xF#4 x 0x65#8⟩

end Sys2Proof.Laws.RowOfWord
end

