-- ==== Sys2Proof/Laws/Step.lean ====
section
/-! SUPPORT. What one step can do, said once. -/

namespace Sys2Proof.Machine

/-- A step of a waiting machine (40_step_and_dispatch.md R121). -/
theorem step_of_waiting {s : State} {r : RegIdx} (h : s.keyWait = some r) : step s = .next s := by
  simp [step, cycle, h]

/-- A step of a running machine is the execution of the fetched word (R122, R124). -/
theorem step_of_running {s : State} (h : s.keyWait = none) (hpc : PcOk s.pc) :
    step s = executeWord s.fetchWord s := by
  simp [step, cycle, h, hpc]

/-- A word that decodes is executed in the state with both timers decremented (R122, R125). -/
theorem executeWord_of_ok {op : Word} {i : Instr} (s : State) (h : decodeWord op = .ok i) :
    executeWord op s = exec i s.tickTimers := by
  simp [executeWord, h]

/-- A word that is rejected ends in the fault of that name (R125). -/
theorem executeWord_of_error {op : Word} {r : Reject} (s : State) (h : decodeWord op = .error r) :
    executeWord op s = .fault (rejectFault r op s.pc) := by
  simp [executeWord, h]

/-- Everything that leads to a next state: the machine waits and stays, or the decoded instruction answers it. -/
theorem step_eq_next {s t : State} :
    step s = .next t ↔
      (s.keyWait ≠ none ∧ t = s) ∨
      (s.keyWait = none ∧ PcOk s.pc ∧ ∃ i, decodeWord s.fetchWord = .ok i ∧ exec i s.tickTimers = .next t) := by
  cases hk : s.keyWait with
  | some r => simp [step_of_waiting hk, eq_comm]
  | none =>
    by_cases hpc : PcOk s.pc
    · rw [step_of_running hk hpc]
      cases hd : decodeWord s.fetchWord with
      | ok i => simpa [executeWord_of_ok s hd] using fun _ => hpc
      | error r => simp [executeWord_of_error s hd]
    · simp [step, cycle, hk, hpc]

/-- Everything that leads to a fault: the word is rejected, or the instruction raises it. -/
theorem step_eq_fault {s : State} {f : Fault} :
    step s = .fault f ↔
      s.keyWait = none ∧ PcOk s.pc ∧
      ((∃ r, decodeWord s.fetchWord = .error r ∧ f = rejectFault r s.fetchWord s.pc) ∨
       (∃ i, decodeWord s.fetchWord = .ok i ∧ exec i s.tickTimers = .fault f)) := by
  cases hk : s.keyWait with
  | some r => simp [step_of_waiting hk]
  | none =>
    by_cases hpc : PcOk s.pc
    · rw [step_of_running hk hpc]
      cases hd : decodeWord s.fetchWord with
      | ok i => simpa [executeWord_of_ok s hd] using fun _ => hpc
      | error r => simpa [executeWord_of_error s hd, eq_comm] using fun _ => hpc
    · simp [step, cycle, hk, hpc]

/-- A pre-decremented timer in numbers (R122). -/
theorem toNat_decrement (t : Byte) : (decrement t).toNat = t.toNat - 1 := by
  revert t
  decide

end Sys2Proof.Machine
end

