-- ==== Sys2Proof/Tests/Slice0.lean ====
section
/-! SUPPORT. Tests of the model: expected results are those of spec/95_test_vectors.md (its ids in the comments)
or of the rule named. Each is one step or one operation on a small state. -/

namespace Sys2Proof.Tests

open Sys2Proof.Machine

/-! ## Helpers -/

/-- The reset state with an instruction word at 0x200. -/
def ready (w : Nat) : State := State.reset.withFetchWord 16 w

/-- A state with an instruction word at its own pc. -/
def holding (s : State) (w : Nat) : State := s.withFetchWord 16 w

/-- The step answers a next state with the property. -/
def ran (s : State) (p : State → Bool) : Bool :=
  match step s with
  | .next t => p t
  | .fault _ => false
  | .refused _ => false

/-- The step ends in the fault. -/
def faulted (s : State) (f : Fault) : Bool :=
  match step s with
  | .next _ => false
  | .fault g => g == f
  | .refused _ => false

/-- The key transitions with the listed keys pressed and the rest unchanged. -/
def presses (ks : List Nat) : Vector KeyTransition 16 :=
  Vector.ofFn fun k : Fin 16 => if ks.contains k.val then .pressed else .unchanged

/-! ## WellFormed smoke: an ill-formed term for each check -/

theorem test_wellFormed_sys_cls : (Instr.sys 0x0E0#12).wellFormed = false := by decide
theorem test_wellFormed_sys_ret : (Instr.sys 0x0EE#12).wellFormed = false := by decide
theorem test_wellFormed_rnd_off : (Instr.rnd 0#4 0#8).wellFormedIn false = false := by decide

/-! ## Decoding: words written out from 30_encoding.md R91, R96 -/

theorem test_decode_group0 :
    decodeWord 0b0000000011100000 = .ok .cls ∧ decodeWord 0b0000000011101110 = .ok .ret ∧
    decodeWord 0b0000000100100011 = .ok (.sys 0x123) ∧ decodeWord 0x00E1 = .ok (.sys 0x0E1) := by decide

theorem test_decode_nnn :
    decodeWord 0b0001001000110100 = .ok (.jp 0x234) ∧ decodeWord 0b0010001100000000 = .ok (.call 0x300) ∧
    decodeWord 0b1010001011110000 = .ok (.ldI 0x2F0) ∧ decodeWord 0b1011001100010000 = .ok (.jpV0 0x310) := by
  decide

theorem test_decode_xnn :
    decodeWord 0b0011000111111110 = .ok (.seImm 1 0xFE) ∧ decodeWord 0b0100101000010000 = .ok (.sneImm 0xA 0x10) ∧
    decodeWord 0b0110101000101011 = .ok (.ldImm 0xA 0x2B) ∧ decodeWord 0b0111000100000101 = .ok (.addImm 1 5) ∧
    decodeWord 0b1100001100001111 = .ok (.rnd 3 0x0F) := by decide

theorem test_decode_xy :
    decodeWord 0b0101000100100000 = .ok (.seReg 1 2) ∧ decodeWord 0b1001000100100000 = .ok (.sneReg 1 2) ∧
    decodeWord 0b1000101010110000 = .ok (.ldReg 0xA 0xB) ∧ decodeWord 0b1000101010110001 = .ok (.orReg 0xA 0xB) ∧
    decodeWord 0b1000101010110010 = .ok (.andReg 0xA 0xB) ∧ decodeWord 0b1000101010110011 = .ok (.xorReg 0xA 0xB) := by
  decide

/-- S1: 0x8AB4 has VX = 0xA, VY = 0xB. -/
theorem test_decode_group8 :
    decodeWord 0b1000101010110100 = .ok (.addReg 0xA 0xB) ∧ decodeWord 0b1000101010110101 = .ok (.sub 0xA 0xB) ∧
    decodeWord 0b1000101010110110 = .ok (.shr 0xA 0xB) ∧ decodeWord 0b1000101010110111 = .ok (.subn 0xA 0xB) ∧
    decodeWord 0b1000101010111110 = .ok (.shl 0xA 0xB) ∧ decodeWord 0b1101000100101111 = .ok (.drw 1 2 0xF) := by
  decide

theorem test_decode_xkk :
    decodeWord 0b1110001110011110 = .ok (.skp 3) ∧ decodeWord 0b1110001110100001 = .ok (.sknp 3) ∧
    decodeWord 0b1111000100000111 = .ok (.ldVxDt 1) ∧ decodeWord 0b1111001100001010 = .ok (.ldVxK 3) ∧
    decodeWord 0b1111000000010101 = .ok (.ldDtVx 0) ∧ decodeWord 0b1111001000011000 = .ok (.ldStVx 2) := by decide

theorem test_decode_xkk_memory :
    decodeWord 0b1111001000011110 = .ok (.addI 2) ∧ decodeWord 0b1111000000101001 = .ok (.ldF 0) ∧
    decodeWord 0b1111000000110011 = .ok (.ldB 0) ∧ decodeWord 0b1111001001010101 = .ok (.ldMemVx 2) ∧
    decodeWord 0b1111001001100101 = .ok (.ldVxMem 2) := by decide

/-- SD4 to SD10: words no row covers. -/
theorem test_decode_rejects :
    decodeWord 0x8128 = .error .decodeError ∧ decodeWord 0x812F = .error .decodeError ∧
    decodeWord 0xE19F = .error .decodeError ∧ decodeWord 0xF100 = .error .decodeError ∧
    decodeWord 0xF175 = .error .decodeError ∧ decodeWord 0x5121 = .error .malformedEncoding ∧
    decodeWord 0x912F = .error .malformedEncoding := by decide

/-- `RND_DEFINED` = false makes `CXNN` a DecodeError (41_arith_logic.md R152). -/
theorem test_decode_rnd_off : decodeWordIn false 0xC30F = .error .decodeError := by decide

theorem test_decode_bytes :
    decode [0x12, 0x34, 0x56] = .ok (.jp 0x234, [0x56]) ∧ decode [0x12] = .error .truncated ∧
    decode [] = .error .truncated := by decide

theorem test_decodeTableWord : decodeTableWord 16 0x8AB4 = some (.addReg 0xA 0xB) ∧
    decodeTableWord 16 0x8AB8 = none := by decide

/-! ## The step cycle (section 2.1) -/

/-- SD1: the first step with nothing loaded. -/
theorem test_step_reset : faulted State.reset (.unsupportedNative 0 0x200) := by decide

/-- SD2. -/
theorem test_step_timers : ran { ready 0x6A2B with dt := 5, st := 1 } fun t =>
    t.getV 0xA == 0x2B && t.dt == 4 && t.st == 0 && t.pc == 0x202 := by decide

/-- SD4: a fault leaves everything, timers included. -/
theorem test_step_fault_atomic :
    stateAfterStep { ready 0x8128 with dt := 5, st := 5 } = { ready 0x8128 with dt := 5, st := 5 } := by decide

/-- SD9. -/
theorem test_step_malformed : faulted (ready 0x5121) (.malformedEncoding 0x5121 0x200) := by decide

/-- SD12. -/
theorem test_step_sys : faulted (ready 0x0FFF) (.unsupportedNative 0x0FFF 0x200) := by decide

/-- SD14. -/
theorem test_step_blocked :
    stepReport { ready 0x6A2B with keyWait := some 3, dt := 9 } = .blocked ∧
    stateAfterStep { ready 0x6A2B with keyWait := some 3, dt := 9 } = { ready 0x6A2B with keyWait := some 3, dt := 9 } := by
  decide

/-- SD15: the last word. -/
theorem test_step_last_word :
    faulted (holding { State.reset with pc := 0xFFE } 0x6001) (.pcOutOfBounds 0x6001 0xFFE) := by decide

/-- SD16. -/
theorem test_step_jump_at_last_word :
    ran (holding { State.reset with pc := 0xFFE } 0x1200) fun t => t.pc == 0x200 := by decide

/-- SD17: skip target 0x1000. -/
theorem test_step_skip_at_end :
    faulted (holding { State.reset with pc := 0xFFC } 0x3000) (.pcOutOfBounds 0x3000 0xFFC) := by decide

/-- The model's own refusal: an odd pc occurs in no run. -/
theorem test_step_odd_pc : (match step { State.reset with pc := 0x201 } with
    | .refused r => r == .pcInvariantBroken 0x201 | .next _ => false | .fault _ => false) = true := by decide

/-! ## Arithmetic and logic (section 2.2) -/

/-- AL1. -/
theorem test_ldImm_vf : ran (ready 0x6FAB) fun t => t.getV 0xF == 0xAB && t.pc == 0x202 := by decide

/-- AL2. -/
theorem test_addImm_wraps : ran (((ready 0x7101).setV 1 0xFF).setV 0xF 7) fun t =>
    t.getV 1 == 0 && t.getV 0xF == 7 := by decide

/-- AL6. -/
theorem test_ldReg : ran ((ready 0x8120).setV 2 0x7C) fun t => t.getV 1 == 0x7C && t.getV 2 == 0x7C := by decide

/-- AL7. -/
theorem test_orReg : ran ((((ready 0x8011).setV 0 0xF0).setV 1 0x0F).setV 0xF 1) fun t =>
    t.getV 0 == 0xFF && t.getV 0xF == 1 := by decide

/-- AL8. -/
theorem test_andReg : ran ((((ready 0x8012).setV 0 0xF3).setV 1 0x3C).setV 0xF 1) fun t =>
    t.getV 0 == 0x30 && t.getV 0xF == 1 := by decide

/-- AL9. -/
theorem test_xorReg : ran ((((ready 0x8013).setV 0 0xFF).setV 1 0x0F).setV 0xF 1) fun t =>
    t.getV 0 == 0xF0 && t.getV 0xF == 1 := by decide

/-- AL14: the sum is lost, the carry stays. -/
theorem test_addReg_vf_destination : ran (((ready 0x8F14).setV 0xF 0xF0).setV 1 0x20) fun t =>
    t.getV 0xF == 1 && t.getV 1 == 0x20 := by decide

/-- AL16: the old VF is the addend. -/
theorem test_addReg_vf_source : ran (((ready 0x81F4).setV 0xF 2).setV 1 0xFF) fun t =>
    t.getV 0xF == 1 && t.getV 1 == 1 := by decide

/-- S4. -/
theorem test_sub_borrow : ran (((ready 0x8125).setV 1 1).setV 2 2) fun t =>
    t.getV 1 == 0xFF && t.getV 0xF == 0 := by decide

/-- S12: equal operands do not borrow. -/
theorem test_sub_equal : ran (((ready 0x8125).setV 1 7).setV 2 7) fun t =>
    t.getV 1 == 0 && t.getV 0xF == 1 := by decide

/-- AL25: the source is V2. -/
theorem test_shr_source : ran ((((ready 0x8126).setV 1 0xFF).setV 2 0x02).setV 0xF 9) fun t =>
    t.getV 1 == 1 && t.getV 2 == 2 && t.getV 0xF == 0 := by decide

/-- AL29: the source is the old VF. -/
theorem test_shr_vf_source : ran ((ready 0x81F6).setV 0xF 3) fun t => t.getV 1 == 1 && t.getV 0xF == 1 := by decide

/-- AL22. -/
theorem test_subn_borrow : ran (((ready 0x8127).setV 1 2).setV 2 1) fun t =>
    t.getV 1 == 0xFF && t.getV 0xF == 0 := by decide

/-- AL23. -/
theorem test_subn : ran (((ready 0x8127).setV 1 2).setV 2 5) fun t => t.getV 1 == 3 && t.getV 0xF == 1 := by decide

/-- AL30. -/
theorem test_shl : ran ((ready 0x812E).setV 2 0x81) fun t =>
    t.getV 1 == 2 && t.getV 2 == 0x81 && t.getV 0xF == 1 := by decide

/-- AL31. -/
theorem test_shl_no_flag : ran ((ready 0x812E).setV 2 0x40) fun t => t.getV 1 == 0x80 && t.getV 0xF == 0 := by decide

/-- The other settings of the quirks (notes under section 2.2). -/
theorem test_quirks_other_setting :
    borrowFlag false 0 1 = true ∧ borrowFlag false 0 0 = false ∧
    shiftSource false ((State.reset.setV 1 0xFF).setV 2 2) 1 2 = 0xFF ∧
    indexAfterBulk true { State.reset with index := 0x400 } 3 = 0x403 := by decide

/-- R152: one draw is consumed and the pc moves on. -/
theorem test_rnd : ran (ready 0xC30F) fun t => t.draws == 1 && t.pc == 0x202 && t.getV 0 == 0 := by decide

/-! ## Control flow (section 2.3) -/

/-- CF3: bounds before alignment. -/
theorem test_jp_bounds : faulted (ready 0x1FFF) (.pcOutOfBounds 0x1FFF 0x200) := by decide

/-- CF4. -/
theorem test_jp_odd : faulted (ready 0x1201) (.pcMisaligned 0x1201 0x200) := by decide

/-- CF7: the 12th nested call. -/
theorem test_call_twelfth :
    ran (holding { State.reset with pc := 0x204, sp := 11 } 0x2300) fun t =>
      t.stack[11] == 0x206 && t.sp == 12 && t.pc == 0x300 := by decide

/-- CF9: the stack cause comes before the pc cause. -/
theorem test_call_overflow :
    faulted (holding { State.reset with pc := 0x204, sp := 12 } 0x2301) (.stackOverflow 0x2301 0x204) := by
  decide

/-- CF11: the popped slot keeps its value. -/
theorem test_ret :
    ran (holding { State.reset with pc := 0x300, sp := 1, stack := State.reset.stack.set 0 0x206 } 0x00EE)
      fun t => t.pc == 0x206 && t.sp == 0 && t.stack[0] == 0x206 := by decide

/-- CF12. -/
theorem test_ret_underflow : faulted (ready 0x00EE) (.stackUnderflow 0x00EE 0x200) := by decide

/-- CF16: no wrap. -/
theorem test_jpV0_bounds : faulted ((ready 0xBFFE).setV 0 4) (.pcOutOfBounds 0xBFFE 0x200) := by decide

/-- CF17: the offset is V0, not V3. -/
theorem test_jpV0_offset : ran ((ready 0xB310).setV 3 0x10) fun t => t.pc == 0x310 := by decide

/-- CF18, CF19. -/
theorem test_seImm : ran (ready 0x3100) (fun t => t.pc == 0x204) ∧
    ran ((ready 0x3100).setV 1 1) (fun t => t.pc == 0x202) := by decide

/-- CF20, CF21. -/
theorem test_sneImm : ran ((ready 0x4A10).setV 0xA 0x11) (fun t => t.pc == 0x204) ∧
    ran ((ready 0x4A10).setV 0xA 0x10) (fun t => t.pc == 0x202) := by decide

/-- CF23, CF24. -/
theorem test_seReg : ran (((ready 0x5120).setV 1 0x33).setV 2 0x34) (fun t => t.pc == 0x202) ∧
    ran (ready 0x5330) (fun t => t.pc == 0x204) := by decide

/-- CF25, CF26. -/
theorem test_sneReg : ran (((ready 0x9120).setV 1 1).setV 2 2) (fun t => t.pc == 0x204) ∧
    ran (ready 0x9330) (fun t => t.pc == 0x202) := by decide

/-- CF27, CF28. -/
theorem test_skp : ran { (ready 0xE39E).setV 3 7 with keys := State.reset.keys.set 7 true } (fun t => t.pc == 0x204) ∧
    ran ((ready 0xE39E).setV 3 7) (fun t => t.pc == 0x202) := by decide

/-- CF29. -/
theorem test_skp_no_key : faulted ((ready 0xE39E).setV 3 0x10) (.keyIndexOutOfRange 0xE39E 0x200) := by decide

/-- CF30, CF31. -/
theorem test_sknp : ran ((ready 0xE3A1).setV 3 7) (fun t => t.pc == 0x204) ∧
    ran { (ready 0xE3A1).setV 3 7 with keys := State.reset.keys.set 7 true } (fun t => t.pc == 0x202) := by decide

/-- CF32. -/
theorem test_sknp_no_key : faulted ((ready 0xE3A1).setV 3 0xFF) (.keyIndexOutOfRange 0xE3A1 0x200) := by decide

/-! ## Memory and index (section 2.4) -/

/-- MI1. -/
theorem test_ldI : ran { ready 0xA2F0 with index := 0xFFFF } fun t => t.index == 0x2F0 := by decide

/-- MI3. -/
theorem test_addI_no_flag : ran { (ready 0xF21E).setV 2 1 with index := 0xFFF } fun t =>
    t.index == 0x1000 && t.getV 0xF == 0 := by decide

/-- MI5. -/
theorem test_addI_wraps : ran { (ready 0xF21E).setV 2 0xFF with index := 0xFF80 } fun t => t.index == 0x7F := by decide

/-- MI8: the low nibble. -/
theorem test_ldF : ran ((ready 0xF029).setV 0 0x1A) fun t => t.index == 0x32 := by decide

/-- MI10. -/
theorem test_ldB : ran { (ready 0xF033).setV 0 0xEA with index := 0x300 } fun t =>
    t.mem.read 0x300 == 2 && t.mem.read 0x301 == 3 && t.mem.read 0x302 == 4 && t.index == 0x300 := by decide

/-- MI15. -/
theorem test_ldB_range : faulted { ready 0xF033 with index := 0xFFE } (.memOutOfRange 0xF033 0x200) := by decide

/-- MI16. -/
theorem test_ldMemVx : ran { (((ready 0xF255).setV 0 0x11).setV 1 0x22).setV 2 0x33 with index := 0x400 } fun t =>
    t.mem.read 0x400 == 0x11 && t.mem.read 0x401 == 0x22 && t.mem.read 0x402 == 0x33 && t.mem.read 0x403 == 0 &&
    t.index == 0x400 := by decide

/-- MI18: no partial store. -/
theorem test_ldMemVx_range : faulted { ready 0xF155 with index := 0xFFF } (.memOutOfRange 0xF155 0x200) := by decide

/-- MI21: the font. -/
theorem test_ldVxMem_font : ran ((ready 0xF465).setV 5 0x55) fun t =>
    t.v.toList.take 6 == [0xF0, 0x90, 0x90, 0x90, 0xF0, 0x55] && t.index == 0 := by decide

/-- MI22: its own encoding. -/
theorem test_ldVxMem_self : ran { ready 0xF165 with index := 0x200 } fun t =>
    t.getV 0 == 0xF1 && t.getV 1 == 0x65 := by decide

/-! ## Display (section 2.5) -/

/-- DS3: bit 7 is leftmost. -/
theorem test_drw_order : ran { ((ready 0xD011).setV 0 8).setV 1 2 with
      index := 0x300, mem := (ready 0xD011).mem.write 0x300 0xA5 } fun t =>
    (List.range 8).map (fun c => t.disp.pixel (8 + c) 2) == [true, false, true, false, false, true, false, true] &&
    t.getV 0xF == 0 := by decide

/-- DS5 and P3: wrapped start, clipped right and bottom. -/
theorem test_drw_clip : ran { ((ready 0xD012).setV 0 0xFE).setV 1 0xFF with
      index := 0x300, mem := (ready 0xD012).mem.writeBytes 0x300 [0xFF, 0xFF] } fun t =>
    t.disp.pixel 62 31 && t.disp.pixel 63 31 && !t.disp.pixel 0 31 && t.disp[0] == 0 && t.disp[1] == 0 := by decide

/-- DS8: a collision. -/
theorem test_drw_collision : ran { ready 0xD011 with
      index := 0x300, mem := (ready 0xD011).mem.write 0x300 0xC0, disp := State.reset.disp.setPixel 0 0 true } fun t =>
    !t.disp.pixel 0 0 && t.disp.pixel 1 0 && t.getV 0xF == 1 := by decide

/-- DS12: no rows, no range test. -/
theorem test_drw_no_rows : ran { (ready 0xD010).setV 0xF 1 with index := 0x1000 } fun t => t.getV 0xF == 0 := by decide

/-- DS14: clipped rows are range-tested. -/
theorem test_drw_range : faulted { (ready 0xD012).setV 1 31 with index := 0xFFF } (.memOutOfRange 0xD012 0x200) := by
  decide

/-- DS17. -/
theorem test_cls : ran { (ready 0x00E0).setV 0xF 5 with disp := Vector.replicate 32 (BitVec.allOnes 64) } fun t =>
    t.disp == State.reset.disp && t.getV 0xF == 5 := by decide

/-! ## Timers and input (section 2.6) -/

/-- TI1. -/
theorem test_ldVxDt : ran { ready 0xF107 with dt := 0x0A } fun t => t.getV 1 == 9 && t.dt == 9 := by decide

/-- TI4. -/
theorem test_ldDtVx : ran { (ready 0xF015).setV 0 3 with dt := 9, st := 4 } fun t => t.dt == 3 && t.st == 3 := by decide

/-- TI5. -/
theorem test_ldStVx : ran ((ready 0xF218).setV 2 2) fun t => t.st == 2 && t.soundActive := by decide

/-- TI8. -/
theorem test_ldVxK : ran { ready 0xF30A with dt := 4, keys := State.reset.keys.set 5 true } fun t =>
    t.keyWait == some 3 && t.pc == 0x202 && t.dt == 3 && t.getV 3 == 0 := by decide

/-- TI12: the highest pressed key wins. -/
theorem test_setKeys_highest :
    ({ State.reset with keyWait := some 3 }.setKeys (presses [1, 9, 4])).getV 3 = 9 ∧
    ({ State.reset with keyWait := some 3 }.setKeys (presses [1, 9, 4])).keyWait = none ∧
    (State.reset.setKeys (presses [1, 9, 4])).keys.toList.take 5 = [false, true, false, false, true] := by decide

/-- TI14: no wait, no register write. -/
theorem test_setKeys_running :
    ((State.reset.setV 3 0xEE).setKeys (presses [7])).getV 3 = 0xEE ∧
    ((State.reset.setV 3 0xEE).setKeys (presses [7])).keyHeld 7 = true := by decide

/-- TI19. -/
theorem test_load_odd : (match State.reset.load [0x12] with
    | .next t => t.mem.read 0x200 == 0x12 && t.mem.read 0x201 == 0 && t.pc == 0x200
    | .fault _ => false | .refused _ => false) = true := by decide

/-- R38, R39 (section 2.7). -/
theorem test_reset_memory :
    (List.range 5).map State.reset.mem.read = [0xF0, 0x90, 0x90, 0x90, 0xF0] ∧
    (List.range 5).map (fun k => State.reset.mem.read (0x4B + k)) = [0xF0, 0x80, 0xF0, 0x80, 0x80] ∧
    State.reset.mem.read 0x50 = 0 ∧ State.reset.mem.read 0x200 = 0 ∧ State.reset.mem.read 0xFFF = 0 := by decide

/-! ## Witnesses: a concrete state and operands that meet the hypotheses of each statement, one for each clause, at
the edge of its range -/

/-- The reset state at another pc. -/
def atPc (p : Word) : State := { State.reset with pc := p }

/-- `exec` answers a next state with the property. -/
def execRan (i : Instr) (s : State) (p : State → Bool) : Bool :=
  match exec i s with
  | .next t => p t
  | .fault _ => false
  | .refused _ => false

/-- `exec` ends in the fault. -/
def execFaulted (i : Instr) (s : State) (f : Fault) : Bool :=
  match exec i s with
  | .next _ => false
  | .fault g => g == f
  | .refused _ => false

/-- The machine runs at the pc, in bounds, and fetches the word there. -/
def fetches (s : State) (w : Word) : Bool := s.keyWait == none && decide (PcOk s.pc) && s.fetchWord == w

theorem eq_of_faulted {s : State} {f : Fault} (h : faulted s f = true) : step s = .fault f := by
  unfold faulted at h
  split at h
  · cases h
  · simp_all
  · cases h

/-! ### Encoding and the step cycle -/

theorem witness_DecodeOfEncodeIsTheInstruction :
    (Instr.sys 0x0EF).wellFormed = true ∧ (Instr.drw 0xF 0xF 0xF).wellFormed = true ∧
    (Instr.rnd 0xF 0xFF).wellFormed = true := by decide

theorem witness_EncodeOfDecodeIsTheWord :
    decodeWord 0xFF65 = .ok (.ldVxMem 0xF) ∧ decodeWord 0x0000 = .ok (.sys 0) := by decide

theorem witness_DecoderFollowsTheOpcodeTable :
    decodeWord 0x00EE = .ok .ret ∧ decodeWord 0xFFFF = .error .decodeError ∧
    opcodeTable[1]? = some ⟨0xFFFF, 0x00EE⟩ ∧ opcodeTable[2]? = some ⟨0xF000, 0x0000⟩ ∧
    OpcodeRow.covers ⟨0xFFFF, 0x00EE⟩ 0x00EE = true ∧ OpcodeRow.covers ⟨0xF000, 0x0000⟩ 0x00EE = true := by decide

theorem witness_RejectedWordsAreThoseOfTheSpec :
    (fetches (holding (atPc 0xFFE) 0x800F) 0x800F ∧ decodeWord 0x800F = .error .decodeError) ∧
    (fetches (holding (atPc 0xFFE) 0xFFFF) 0xFFFF ∧ decodeWord 0xFFFF = .error .decodeError) ∧
    (fetches (holding (atPc 0xFFE) 0x9FFF) 0x9FFF ∧ decodeWord 0x9FFF = .error .malformedEncoding) := by decide

theorem witness_NativeCallsAlwaysFault :
    opG 0x00EF = 0 ∧ opNNN 0x00EF ≠ 0x0E0 ∧ opNNN 0x00EF ≠ 0x0EE ∧
    fetches (holding (atPc 0xFFE) 0x00EF) 0x00EF := by decide

theorem witness_FetchIsBigEndianAndInsideMemory : PcOk (atPc 0xFFE).pc ∧ PcOk (atPc 0).pc := by decide

theorem witness_StepRunsTheDecodedInstruction :
    (fetches (holding (atPc 0xFFE) 0x1200) 0x1200 ∧ decodeWord 0x1200 = .ok (.jp 0x200)) ∧
    (fetches (holding (atPc 0xFFE) 0xF1FF) 0xF1FF ∧ decodeWord 0xF1FF = .error .decodeError) ∧
    (fetches (holding (atPc 0xFFE) 0x5121) 0x5121 ∧ decodeWord 0x5121 = .error .malformedEncoding) := by decide

theorem witness_BlockedStepChangesNothing :
    { State.reset with keyWait := some 0xF }.keyWait = some 0xF ∧
    (match { State.reset with keyWait := some 0xF }.apply (.setKeys (presses [0])) with
      | .next t => t.keyWait == none | .fault _ => false | .refused _ => false) = true := by decide

theorem witness_FaultingStepCommitsNothing : step State.reset = .fault (.unsupportedNative 0 0x200) :=
  eq_of_faulted (by decide)

theorem witness_FaultReportsTheFetchedWord :
    step (holding (atPc 0xFFE) 0x6001) = .fault (.pcOutOfBounds 0x6001 0xFFE) := eq_of_faulted (by decide)

theorem witness_TimersFollowTheTimerLaw :
    { State.reset with keyWait := some 0, dt := 1 }.keyWait ≠ none ∧
    step { State.reset with dt := 1, st := 1 } = .fault (.unsupportedNative 0 0x200) ∧
    ran { ready 0xFF15 with dt := 0, st := 0xFF } (fun _ => true) ∧
    ran { ready 0xFF18 with dt := 0, st := 0xFF } (fun _ => true) ∧
    ran { ready 0x60FF with dt := 0, st := 0xFF } (fun _ => true) :=
  ⟨by decide, eq_of_faulted (by decide), by decide⟩

theorem witness_EachFaultHasItsInstructions :
    (atPc 0xFFE).Inv ∧ execFaulted .cls (atPc 0xFFE) (.pcOutOfBounds 0x00E0 0xFFE) ∧
    execFaulted .ret (atPc 0) (.stackUnderflow 0x00EE 0) ∧
    { State.reset with sp := 12 }.Inv ∧
    execFaulted (.call 0x200) { State.reset with sp := 12 } (.stackOverflow 0x2200 0x200) ∧
    { State.reset with index := 0xFFF }.Inv ∧
    execFaulted (.drw 0 0 2) { State.reset with index := 0xFFF } (.memOutOfRange 0xD002 0x200) ∧
    execFaulted (.sys 0) State.reset (.unsupportedNative 0 0x200) ∧
    execFaulted (.jpV0 0xFFD) State.reset (.pcMisaligned 0xBFFD 0x200) ∧
    (State.reset.setV 0 16).Inv ∧ execFaulted (.skp 0) (State.reset.setV 0 16) (.keyIndexOutOfRange 0xE09E 0x200) := by
  decide

theorem witness_NewPcOfEveryInstruction :
    execRan (.jp 0xFFE) (atPc 0xFFE) (fun _ => true) ∧ execRan (.call 0) (atPc 0xFFE) (fun _ => true) ∧
    execRan .ret { State.reset with sp := 1 } (fun _ => true) ∧
    execRan (.jpV0 0xF00) (State.reset.setV 0 0xFE) (fun _ => true) ∧
    execRan (.seImm 0 0) (atPc 0xFFA) (fun _ => true) ∧ execRan (.sneImm 0 0) (atPc 0xFFC) (fun _ => true) ∧
    execRan (.seReg 0 1) (atPc 0xFFA) (fun _ => true) ∧ execRan (.sneReg 0 1) (atPc 0xFFC) (fun _ => true) ∧
    execRan (.skp 0) (atPc 0xFFC) (fun _ => true) ∧ execRan (.sknp 0) (atPc 0xFFA) (fun _ => true) ∧
    execRan .cls (atPc 0xFFC) (fun _ => true) := by decide

/-! ### Invariants and writers -/

theorem witness_StepKeepsTheInvariant :
    (holding (atPc 0xFFE) 0x2200).Inv ∧ ran (holding (atPc 0xFFE) 0x2200) (fun t => t.stack[0] == 0x1000) := by decide

theorem witness_HostOperationsKeepTheInvariant :
    State.reset.Inv ∧ (match State.reset.load [0x12] with
      | .next _ => true | .fault _ => false | .refused _ => false) = true := by decide

theorem witness_EveryRunMeetsTheInvariant :
    (match State.run [.reset, .load [0x00, 0xE0], .setKeys (presses [0xF]), .step, .soundActive, .displaySnapshot]
        State.reset with
      | .next t => t.pc == 0x202 | .fault _ => false | .refused _ => false) = true := by decide

theorem witness_NoStepIsRefused : (atPc 0xFFE).Inv := by decide

/-- Two memories written in different orders. -/
theorem witness_CanonicalMemoryIsItsBytes :
    (Memory.write (Memory.write [] 0xFFF 1) 0 0).wf ∧ (Memory.write (Memory.write [] 0 0) 0xFFF 1).wf ∧
    ∀ a : Nat, (Memory.write (Memory.write [] 0xFFF 1) 0 0).read a =
      (Memory.write (Memory.write [] 0 0) 0xFFF 1).read a :=
  ⟨by decide, by decide, fun _ => rfl⟩

theorem witness_StoredBytesAreFetchedAtOnce :
    State.reset.mem.wf ∧
    execRan (.ldMemVx 1) { State.reset with index := 0x202 } (fun t => t.pc.toNat == 0x202 + 0) ∧
    execRan (.ldMemVx 0xF) { State.reset with index := 0x1F4 } (fun t => t.pc.toNat == 0x1F4 + 14) ∧
    14 + 1 ≤ (0xF#4).toNat := by decide

theorem witness_OnlyStoresChangeMemory :
    execRan (.ldB 0) { State.reset.setV 0 0xFF with index := 0xFFD } (fun t =>
      t.mem.read 0xFFF != State.reset.mem.read 0xFFF) ∧
    execRan (.ldMemVx 0) { State.reset.setV 0 0xFF with index := 0xFFF } (fun t =>
      t.mem.read 0xFFF != State.reset.mem.read 0xFFF) := by decide

theorem witness_OnlyClsAndDrwChangeTheDisplay :
    execRan .cls { State.reset with disp := State.reset.disp.setPixel 63 31 true } (fun t => !t.disp.pixel 63 31) ∧
    execRan (.drw 0 1 1) ((State.reset.setV 0 63).setV 1 31) (fun t => t.disp.pixel 63 31) ∧
    (match State.reset.apply (.setKeys (presses [0])) with
      | .next _ => true | .fault _ => false | .refused _ => false) = true := by decide

theorem witness_OnlyCallAndRetMoveTheStack :
    execRan (.call 0x200) { State.reset with sp := 11 } (fun t => t.sp != 11 && t.stack[11] != 0) ∧
    execRan .ret { State.reset with sp := 1 } (fun t => t.sp != 1) := by decide

theorem witness_OnlyIndexInstructionsWriteTheIndex :
    execRan (.ldI 0xFFF) State.reset (fun t => t.index != 0) ∧
    execRan (.addI 0) (State.reset.setV 0 0xFF) (fun t => t.index != 0) ∧
    execRan (.ldF 0) (State.reset.setV 0 0xFF) (fun t => t.index != 0) := by decide

theorem witness_NoStepWritesKeyFlags : ran (ready 0x00E0) (fun _ => true) := by decide

theorem witness_FlagRegisterHasItsWriters :
    execRan (.addReg 0xF 0xF) (State.reset.setV 0xF 0x80) (fun t => t.getV 0xF != 0x80) ∧
    execRan (.drw 0 0 0) (State.reset.setV 0xF 0x80) (fun t => t.getV 0xF != 0x80) ∧
    execRan (.ldImm 0xF 0xAB) State.reset (fun t => t.getV 0xF != 0) ∧
    execRan (.xorReg 0xF 0) (State.reset.setV 0 1) (fun t => t.getV 0xF != 0) ∧
    execRan (.ldVxDt 0xF) { State.reset with dt := 9 } (fun t => t.getV 0xF != 0) ∧
    execRan (.ldVxMem 0xF) State.reset (fun t => t.getV 0xF != 0) := by decide

/-! ### Arithmetic and logic -/

theorem witness_LoadImmediateWritesTheRegister : (atPc 0xFFC).CanAdvance ∧ (atPc 0xFFE).AtLastWord := by decide

theorem witness_AddImmediateWrapsWithoutFlag : (atPc 0xFFC).CanAdvance ∧ (atPc 0xFFE).AtLastWord := by decide

theorem witness_CopyRegisterWritesTheDestination : (atPc 0xFFC).CanAdvance ∧ (atPc 0xFFE).AtLastWord := by decide

theorem witness_BitwiseOperationsCombineIntoTheDestination :
    (atPc 0xFFC).CanAdvance ∧ (atPc 0xFFE).AtLastWord := by decide

/-- The flag register is a destination that loses the result, register 0 one that keeps it. -/
theorem witness_AddRegistersWritesSumThenCarry :
    (atPc 0xFFC).CanAdvance ∧ (atPc 0xFFE).AtLastWord ∧ (0#4 ≠ 0xF) := by decide

theorem witness_SubtractionsWriteDifferenceThenNotBorrow :
    (atPc 0xFFC).CanAdvance ∧ (atPc 0xFFE).AtLastWord ∧ (0xE#4 ≠ 0xF) := by decide

theorem witness_ShiftsWriteResultThenBitShiftedOut :
    (atPc 0xFFC).CanAdvance ∧ (atPc 0xFFE).AtLastWord ∧ (0xE#4 ≠ 0xF) := by decide

theorem witness_RandomByteIsMasked : (atPc 0xFFC).CanAdvance ∧ (atPc 0xFFE).AtLastWord := by decide

/-! ### Control flow -/

theorem witness_JumpGoesToItsTarget :
    (0xFFE#12).toNat % 2 = 0 ∧ 0xFFF#12 = 0xFFF ∧ (0xFFD#12).toNat % 2 = 1 ∧ 0xFFD#12 ≠ 0xFFF := by decide

theorem witness_CallPushesTheReturnAddress :
    ({ State.reset with sp := 11 }.sp.val < 12 ∧ (0xFFE#12).toNat % 2 = 0) ∧
    { State.reset with sp := 12 }.sp.val = 12 ∧
    (State.reset.sp.val < 12 ∧ 0xFFF#12 = 0xFFF) ∧
    ((0xFFD#12).toNat % 2 = 1 ∧ 0xFFD#12 ≠ 0xFFF) := by decide

theorem witness_ReturnPopsTheReturnAddress :
    State.reset.sp.val = 0 ∧
    (let s : State := { State.reset with sp := 12, stack := State.reset.stack.set 11 0xFFE }
     s.sp.val = (11 : Fin 12).val + 1 ∧ s.stack[(11 : Fin 12)].toNat % 2 = 0 ∧ s.stack[(11 : Fin 12)].toNat ≤ 0xFFE) ∧
    (let s : State := { State.reset with sp := 1, stack := State.reset.stack.set 0 0x1000 }
     s.sp.val = (0 : Fin 12).val + 1 ∧ 0xFFE < s.stack[(0 : Fin 12)].toNat) ∧
    (let s : State := { State.reset with sp := 1, stack := State.reset.stack.set 0 0xFFD }
     s.stack[(0 : Fin 12)].toNat ≤ 0xFFE ∧ s.stack[(0 : Fin 12)].toNat % 2 = 1) := by decide

theorem witness_JumpWithOffsetAddsRegisterZero :
    (let s := State.reset.setV 0 0xFE
     (0xF00#12).toNat + (s.getV 0).toNat ≤ 0xFFE ∧ ((0xF00#12).toNat + (s.getV 0).toNat) % 2 = 0) ∧
    (let s := State.reset.setV 0 0xFF
     0xFFE < (0xF00#12).toNat + (s.getV 0).toNat) ∧
    (let s := State.reset.setV 0 0xFD
     (0xF00#12).toNat + (s.getV 0).toNat ≤ 0xFFE ∧ ((0xF00#12).toNat + (s.getV 0).toNat) % 2 = 1) := by decide

/-- Each of the four clauses of a skip, at the last pc that can still skip or advance and at the first that cannot. -/
theorem witness_ImmediateSkipsFollowTheComparison :
    ((atPc 0xFFA).getV 0 = 0 ∧ (atPc 0xFFA).CanSkip) ∧ (¬ (atPc 0xFFC).getV 0 = 1 ∧ (atPc 0xFFC).CanAdvance) ∧
    ((atPc 0xFFC).getV 0 = 0 ∧ Config.memSize - 2 < (atPc 0xFFC).pc.toNat + 4) ∧
    (¬ (atPc 0xFFE).getV 0 = 1 ∧ Config.memSize - 2 < (atPc 0xFFE).pc.toNat + 2) := by decide

theorem witness_RegisterSkipsFollowTheComparison :
    ((atPc 0xFFA).getV 0 = (atPc 0xFFA).getV 1 ∧ (atPc 0xFFA).CanSkip) ∧
    (¬ ((atPc 0xFFC).setV 1 1).getV 0 = ((atPc 0xFFC).setV 1 1).getV 1 ∧ ((atPc 0xFFC).setV 1 1).CanAdvance) ∧
    ((atPc 0xFFC).getV 0 = (atPc 0xFFC).getV 1 ∧ Config.memSize - 2 < (atPc 0xFFC).pc.toNat + 4) ∧
    (¬ ((atPc 0xFFE).setV 1 1).getV 0 = ((atPc 0xFFE).setV 1 1).getV 1 ∧
      Config.memSize - 2 < ((atPc 0xFFE).setV 1 1).pc.toNat + 2) := by decide

theorem witness_KeySkipsFollowTheKeyFlag :
    (let s (p : Word) : State := { (atPc p).setV 0 15 with keys := State.reset.keys.set 15 true }
     (((s 0xFFA).getV 0).toNat ≤ 15 ∧ (s 0xFFA).keys[((s 0xFFA).getV 0).toNat]? = some true ∧ (s 0xFFA).CanSkip) ∧
     (¬ (s 0xFFC).keys[((s 0xFFC).getV 0).toNat]? = some false ∧ (s 0xFFC).CanAdvance) ∧
     Config.memSize - 2 < (s 0xFFC).pc.toNat + 4 ∧ Config.memSize - 2 < (s 0xFFE).pc.toNat + 2) ∧
    15 < (((atPc 0xFFE).setV 0 16).getV 0).toNat := by decide

/-! ### Memory and index -/

theorem witness_LoadIndexWritesTheIndex : (atPc 0xFFC).CanAdvance ∧ (atPc 0xFFE).AtLastWord := by decide

theorem witness_AddIndexWrapsAtSixteenBits : (atPc 0xFFC).CanAdvance ∧ (atPc 0xFFE).AtLastWord := by decide

theorem witness_LoadFontSelectsTheGlyph : (atPc 0xFFC).CanAdvance ∧ (atPc 0xFFE).AtLastWord := by decide

theorem witness_DecimalDigitsAreStored :
    (let s : State := { atPc 0xFFC with index := 0xFFD }
     s.mem.wf ∧ s.CanAdvance ∧ s.index.toNat + 3 ≤ Config.memSize) ∧
    Config.memSize < { atPc 0xFFE with index := 0xFFE }.index.toNat + 3 ∧
    (let s : State := { atPc 0xFFE with index := 0xFFD }
     s.index.toNat + 3 ≤ Config.memSize ∧ s.AtLastWord) := by decide

theorem witness_BulkStoreWritesTheRegisters :
    (let s : State := { atPc 0xFFC with index := 0xFF0 }
     s.mem.wf ∧ s.CanAdvance ∧ s.index.toNat + ((0xF#4).toNat + 1) ≤ Config.memSize) ∧
    Config.memSize < { atPc 0xFFE with index := 0xFF1 }.index.toNat + ((0xF#4).toNat + 1) ∧
    (let s : State := { atPc 0xFFE with index := 0xFFF }
     s.index.toNat + ((0#4).toNat + 1) ≤ Config.memSize ∧ s.AtLastWord) := by decide

theorem witness_BulkLoadReadsTheRegisters :
    (let s : State := { atPc 0xFFC with index := 0xFF0 }
     s.CanAdvance ∧ s.index.toNat + ((0xF#4).toNat + 1) ≤ Config.memSize) ∧
    Config.memSize < { atPc 0xFFE with index := 0xFF1 }.index.toNat + ((0xF#4).toNat + 1) ∧
    (let s : State := { atPc 0xFFE with index := 0xFFF }
     s.index.toNat + ((0#4).toNat + 1) ≤ Config.memSize ∧ s.AtLastWord) := by decide

/-! ### Display -/

theorem witness_ClearScreenClearsEveryPixel : (atPc 0xFFC).CanAdvance ∧ (atPc 0xFFE).AtLastWord := by decide

/-- A sprite that meets a set pixel, one that meets none, and the draw of no rows beyond memory. -/
theorem witness_DrawXorsTheSpriteAndReportsCollision :
    (let s : State := { atPc 0xFFC with index := 0, disp := State.reset.disp.setPixel 0 0 true }
     s.CanAdvance ∧ ((0x1#4).toNat = 0 ∨ s.index.toNat + (0x1#4).toNat ≤ Config.memSize) ∧
     s.disp.pixel 0 0 = true ∧ s.spriteBit 0 0 1 0 0 = true) ∧
    (let s : State := { atPc 0xFFC with index := 0xFF1, disp := State.reset.disp.setPixel 63 31 true }
     s.CanAdvance ∧ s.index.toNat + (0xF#4).toNat ≤ Config.memSize ∧ s.spriteBit 0 0 15 63 31 = false) ∧
    (let s : State := { atPc 0xFFC with index := 0xFFFF }
     s.CanAdvance ∧ (0x0#4).toNat = 0) := by decide

/-- On a blank screen no pixel is set, so the flag's clause for "no collision" is met. -/
theorem witness_DrawWithoutCollision :
    ∀ px < 64, ∀ py < 32, (atPc 0xFFC).disp.pixel px py = true → (atPc 0xFFC).spriteBit 0 0 5 px py = false := by
  intro px _ py _ h
  have hb : (atPc 0xFFC).disp.pixel px py = false := blankDisplay_pixel px py
  rw [hb] at h
  exact absurd h Bool.false_ne_true

theorem witness_DrawTestsItsWholeRange :
    (0 < (0x2#4).toNat ∧ Config.memSize < { atPc 0xFFE with index := 0xFFF }.index.toNat + (0x2#4).toNat) ∧
    (let s : State := { atPc 0xFFE with index := 0xFFF }
     s.index.toNat + (0x1#4).toNat ≤ Config.memSize ∧ s.AtLastWord) ∧
    (0x0#4).toNat = 0 := by decide

/-! ### Timers, input and host operations -/

theorem witness_TimerInstructionsReadAndWriteTheTimers :
    (atPc 0xFFC).CanAdvance ∧ (atPc 0xFFE).AtLastWord := by decide

theorem witness_WaitForKeySetsTheLatch : (atPc 0xFFC).CanAdvance ∧ (atPc 0xFFE).AtLastWord := by decide

theorem witness_InputLatchFollowsItsTable :
    (State.reset.keyWait = none ∧ ran (ready 0xFF0A) (fun t => t.keyWait == some 0xF) ∧ ran (ready 0x00E0) (fun _ => true)) ∧
    faulted State.reset (.unsupportedNative 0 0x200) ∧
    { State.reset with keyWait := some 0 }.keyWait = some 0 ∧
    (∀ k : Fin 16, (presses [])[k] ≠ .pressed) ∧
    ((presses [3, 15])[(15 : Fin 16)] = .pressed ∧ ∀ j : Fin 16, 15 < j → (presses [3, 15])[j] ≠ .pressed) ∧
    (match State.reset.load [] with | .next _ => true | .fault _ => false | .refused _ => false) = true := by decide

theorem witness_SetKeysAppliesEachTransition :
    (presses [15])[(15 : Fin 16)] = .pressed ∧ (presses [15])[(0 : Fin 16)] = .unchanged ∧
    (Vector.replicate 16 KeyTransition.released)[(7 : Fin 16)] = .released := by decide

theorem witness_SetKeysEndsAWaitWithTheHighestKey :
    { State.reset with keyWait := some 0xF }.keyWait = some 0xF ∧
    ((presses [0, 14])[(14 : Fin 16)] = .pressed ∧ ∀ j : Fin 16, 14 < j → (presses [0, 14])[j] ≠ .pressed) ∧
    State.reset.keyWait = none ∧ (∀ k : Fin 16, (presses [])[k] ≠ .pressed) := by decide

theorem witness_ResetLeavesTheResetTable : State.reset.hostReset = State.reset := rfl

theorem witness_LoadCopiesTheImage :
    State.reset.mem.wf ∧ (List.replicate 3584 (0 : Byte)).length ≤ 3584 ∧
    3584 < (List.replicate 3585 (0 : Byte)).length :=
  ⟨by decide, by rw [List.length_replicate], by rw [List.length_replicate]; decide⟩

end Sys2Proof.Tests
end

section
/-! What an instruction writes besides the pc, said once: `effect` is the state it hands to `SetPc`, and every answer of
`exec` is that state with a legal pc. The proofs below read the fields they need off `effect`. -/

namespace Sys2Proof.Machine

/-- The state an instruction commits, the pc apart (40_step_and_dispatch.md R126, R127). Where `exec` faults nothing is
committed, and the value here is of no account. -/
def effect (i : Instr) (s : State) : State :=
  match i with
  | .cls => { s with disp := blankDisplay }
  | .ret => { s with sp := ⟨s.sp.val - 1, by omega⟩ }
  | .call _ =>
    { s with
      stack := s.stack.setIfInBounds s.sp.val (returnAddress s)
      sp := ⟨min (s.sp.val + 1) Config.stackDepth, by omega⟩ }
  | .sys _ | .jp _ | .jpV0 _ | .seImm _ _ | .sneImm _ _ | .seReg _ _ | .sneReg _ _ | .skp _ | .sknp _ => s
  | .ldImm x nn => s.setV x nn
  | .addImm x nn => s.setV x (s.getV x + nn)
  | .ldReg x y => s.setV x (s.getV y)
  | .orReg x y => s.setV x (s.getV x ||| s.getV y)
  | .andReg x y => s.setV x (s.getV x &&& s.getV y)
  | .xorReg x y => s.setV x (s.getV x ^^^ s.getV y)
  | .addReg x y => (s.setV x (s.getV x + s.getV y)).setFlag (carryFlag (s.getV x) (s.getV y))
  | .sub x y =>
    (s.setV x (s.getV x - s.getV y)).setFlag (borrowFlag Config.quirkFlagNotBorrow (s.getV x) (s.getV y))
  | .subn x y =>
    (s.setV x (s.getV y - s.getV x)).setFlag (borrowFlag Config.quirkFlagNotBorrow (s.getV y) (s.getV x))
  | .shr x y => (s.setV x (s.getV y >>> 1)).setFlag (shrFlag (s.getV y))
  | .shl x y => (s.setV x (s.getV y <<< 1)).setFlag (shlFlag (s.getV y))
  | .rnd x nn => { s with draws := s.draws + 1 }.setV x (Config.drawByte s.draws &&& nn)
  | .drw x y n => { s with disp := (s.drawSprite x y n.toNat).1 }.setFlag (s.drawSprite x y n.toNat).2
  | .ldVxDt x => s.setV x s.dt
  | .ldVxK x => { s with keyWait := some x }
  | .ldDtVx x => { s with dt := s.getV x }
  | .ldStVx x => { s with st := s.getV x }
  | .ldI nnn => { s with index := nnn.zeroExtend 16 }
  | .addI x => { s with index := s.index + (s.getV x).zeroExtend 16 }
  | .ldF x => { s with index := fontAddress (s.getV x) }
  | .ldB x => { s with mem := s.mem.writeBytes s.index.toNat (bcdDigits (s.getV x)) }
  | .ldMemVx x => { s with mem := s.mem.writeBytes s.index.toNat (s.regRange x) }
  | .ldVxMem x => { s with v := loadRange s.mem s.index.toNat (rangeLength x) s.v }

/-- With a free slot, the effect of `CALL` is the push (42_control_flow.md R172). -/
theorem effect_call_of_lt (nnn : Imm12) {s : State} (h : s.sp.val < Config.stackDepth) :
    effect (.call nnn) s =
      { s with stack := s.stack.set s.sp.val (returnAddress s) h, sp := ⟨s.sp.val + 1, by omega⟩ } := by
  have hstack : s.stack.setIfInBounds s.sp.val (returnAddress s) = s.stack.set s.sp.val (returnAddress s) h := by
    apply Vector.ext
    intro k hk
    rw [Vector.getElem_setIfInBounds hk, Vector.getElem_set]
  have hsp : min (s.sp.val + 1) Config.stackDepth = s.sp.val + 1 := Nat.min_eq_left h
  simp only [effect, hstack, hsp]

/-- A meaning that begins with a test for a fatal error answers only where the test finds none. -/
theorem of_raise_or_eq_next {c : Prop} [Decidable c] {cause : Word → Word → Fault} {i : Instr} {s t : State}
    {k : ¬ c → Host.Outcome State Fault Refusal} (h : (if hc : c then raise cause i s else k hc) = .next t) :
    ∃ hc : ¬ c, k hc = .next t := by
  by_cases hc : c
  · rw [dif_pos hc] at h
    nomatch h
  · exact ⟨hc, by rwa [dif_neg hc] at h⟩

/-- Every instruction that answers a next state ends in `SetPc` on its `effect`. -/
theorem setPc_effect_of_exec {i : Instr} {s t : State} (h : exec i s = .next t) :
    ∃ n, setPc i n (effect i s) = .next t := by
  cases i with
  | ret =>
    obtain ⟨_, hn⟩ := of_raise_or_eq_next h
    exact ⟨_, hn⟩
  | sys nnn => nomatch h
  | call nnn =>
    obtain ⟨hsp, hn⟩ := of_raise_or_eq_next h
    rw [effect_call_of_lt nnn (by omega)]
    exact ⟨_, hn⟩
  | skp x | sknp x =>
    obtain ⟨_, hn⟩ := of_raise_or_eq_next h
    exact ⟨_, hn⟩
  | drw x y n | ldB x | ldMemVx x | ldVxMem x =>
    obtain ⟨-, hn⟩ := guardRange_eq_next.mp h
    exact ⟨_, hn⟩
  | _ => exact ⟨_, h⟩

/-- What an answer of `exec` is: the instruction's effect, and a pc that meets the pc invariant (10_state.md R25). -/
theorem exec_eq_next {i : Instr} {s t : State} (h : exec i s = .next t) :
    PcOk t.pc ∧ ∃ pc, t = { effect i s with pc := pc } := by
  obtain ⟨n, hn⟩ := setPc_effect_of_exec h
  obtain ⟨-, -, ht⟩ := setPc_eq_next.mp hn
  exact ⟨pcOk_of_setPc hn, _, ht⟩

/-! ## The fields of the effect -/

/-- No instruction writes a key flag (10_state.md R32). -/
@[simp] theorem keys_effect (i : Instr) (s : State) : (effect i s).keys = s.keys := by
  cases i <;> rfl

/-- The stores write through `writeBytes`, which keeps the canonical form. -/
theorem wf_mem_effect (i : Instr) {s : State} (h : s.mem.wf) : (effect i s).mem.wf := by
  cases i with
  | ldB x => exact Memory.wf_writeBytes _ h _
  | ldMemVx x => exact Memory.wf_writeBytes _ h _
  | _ => exact h

/-- The address `CALL` saves is even and at most `MEM_SIZE` where the pc is legal (42_control_flow.md R172). -/
theorem returnAddress_legal {s : State} (hpc : PcOk s.pc) :
    (returnAddress s).toNat % 2 = 0 ∧ (returnAddress s).toNat ≤ Config.memSize := by
  obtain ⟨heven, hle⟩ := hpc
  simp only [Config.memSize] at hle ⊢
  have : (returnAddress s).toNat = s.pc.toNat + 2 :=
    BitVec.toNat_add_of_lt (y := 2) (by change s.pc.toNat + 2 < 65536; omega)
  omega

/-- The push of `CALL` in slot `sp` alone (10_state.md R28). -/
theorem stack_effect_call (nnn : Imm12) (s : State) (k : Fin Config.stackDepth) :
    (effect (.call nnn) s).stack[k] = if k.val = s.sp.val then returnAddress s else s.stack[k] := by
  simp [effect, Vector.getElem_setIfInBounds, eq_comm]

/-- Saved addresses stay legal: `CALL` pushes a legal one, `RET` uncounts one (10_state.md R28). -/
theorem stackOk_effect (i : Instr) {s : State} (hpc : PcOk s.pc) (h : s.StackOk) : (effect i s).StackOk := by
  cases i with
  | ret =>
    intro k hk
    have hlt : k.val < s.sp.val - 1 := hk
    exact h k (by omega)
  | call nnn =>
    intro k hk
    have hlt : k.val < min (s.sp.val + 1) Config.stackDepth := hk
    rw [stack_effect_call]
    split
    case isTrue => exact returnAddress_legal hpc
    case isFalse hne => exact h k (by omega)
  | _ => exact h

/-- Only `CALL` and `RET` move the stack pointer (10_state.md R29). -/
theorem sp_effect_ne {i : Instr} {s : State} (h : (effect i s).sp ≠ s.sp) : i = .ret ∨ ∃ nnn, i = .call nnn := by
  cases i with
  | ret => exact .inl rfl
  | call nnn => exact .inr ⟨nnn, rfl⟩
  | _ => exact absurd rfl h

/-- Only `CALL` writes a stack slot, and it writes slot `sp` (10_state.md R28). -/
theorem stack_effect_ne {i : Instr} {s : State} {k : Fin Config.stackDepth}
    (h : (effect i s).stack[k] ≠ s.stack[k]) : k.val = s.sp.val ∧ ∃ nnn, i = .call nnn := by
  cases i with
  | call nnn =>
    refine ⟨?_, nnn, rfl⟩
    by_contra hne
    exact h ((stack_effect_call nnn s k).trans (if_neg hne))
  | _ => exact absurd rfl h

/-- Only `CLS` and `DRW` write the display (10_state.md R33). -/
theorem disp_effect_ne {i : Instr} {s : State} (h : (effect i s).disp ≠ s.disp) :
    i = .cls ∨ ∃ x y n, i = .drw x y n := by
  cases i with
  | cls => exact .inl rfl
  | drw x y n => exact .inr ⟨x, y, n, rfl⟩
  | _ => exact absurd rfl h

/-- Only `LD I`, `ADD I` and `LD F` write the index register (10_state.md R27). -/
theorem index_effect_ne {i : Instr} {s : State} (h : (effect i s).index ≠ s.index) :
    (∃ nnn, i = .ldI nnn) ∨ ∃ x, i = .addI x ∨ i = .ldF x := by
  cases i with
  | ldI nnn => exact .inl ⟨nnn, rfl⟩
  | addI x => exact .inr ⟨x, .inl rfl⟩
  | ldF x => exact .inr ⟨x, .inr rfl⟩
  | _ => exact absurd rfl h

/-! ## The flag register in the effect (10_state.md R22) -/

/-- The instructions that end with a flag write. -/
def WritesFlag (i : Instr) : Prop :=
  (∃ x y, i = .addReg x y ∨ i = .sub x y ∨ i = .subn x y ∨ i = .shr x y ∨ i = .shl x y) ∨
    ∃ x y n, i = .drw x y n

theorem getV_vf_setFlag (s : State) (f : Bool) : (s.setFlag f).getV vf = 0 ∨ (s.setFlag f).getV vf = 1 := by
  rw [State.getV_setFlag_vf]
  cases f
  · exact .inl rfl
  · exact .inr rfl

theorem getV_vf_effect_of_writesFlag {i : Instr} (s : State) (h : WritesFlag i) :
    (effect i s).getV vf = 0 ∨ (effect i s).getV vf = 1 := by
  obtain ⟨x, y, rfl | rfl | rfl | rfl | rfl⟩ | ⟨x, y, n, rfl⟩ := h <;> exact getV_vf_setFlag _ _

/-- A register that differs after a register write is its destination. -/
theorem eq_of_getV_setV_ne {s : State} {x y : RegIdx} {b : Byte} (h : (s.setV x b).getV y ≠ s.getV y) : x = y := by
  by_contra hne
  exact h (s.getV_setV_of_ne b (Ne.symm hne))

/-- A bulk load that changes `VF` loads all registers (43_memory_index.md R206). -/
theorem eq_vf_of_loadRange_ne {m : Memory} {a : Nat} {x : RegIdx} {v : Vector Byte 16}
    (h : (loadRange m a (rangeLength x) v)[15] ≠ v[15]) : x = vf := by
  rw [loadRange_getElem _ _ _ _ 15 (by omega)] at h
  have hx := x.isLt
  have : 15 < rangeLength x := by
    by_contra hlt
    exact h (if_neg hlt)
  apply BitVec.eq_of_toNat_eq
  change x.toNat = 15
  unfold rangeLength at this
  omega

/-- An instruction that changes `VF` writes the flag, has `VF` as its destination, or loads all registers. -/
theorem getV_vf_effect_ne {i : Instr} {s : State} (h : (effect i s).getV vf ≠ s.getV vf) :
    WritesFlag i ∨ (∃ nn, i = .ldImm vf nn ∨ i = .addImm vf nn ∨ i = .rnd vf nn) ∨
      (∃ y, i = .ldReg vf y ∨ i = .orReg vf y ∨ i = .andReg vf y ∨ i = .xorReg vf y) ∨
      i = .ldVxDt vf ∨ i = .ldVxMem vf := by
  cases i with
  | ldImm x nn | addImm x nn | rnd x nn =>
    obtain rfl := eq_of_getV_setV_ne h
    exact .inr (.inl ⟨nn, by simp⟩)
  | ldReg x y | orReg x y | andReg x y | xorReg x y =>
    obtain rfl := eq_of_getV_setV_ne h
    exact .inr (.inr (.inl ⟨y, by simp⟩))
  | ldVxDt x =>
    obtain rfl := eq_of_getV_setV_ne h
    simp
  | ldVxMem x =>
    obtain rfl := eq_vf_of_loadRange_ne h
    simp
  | addReg x y | sub x y | subn x y | shr x y | shl x y => exact .inl (.inl ⟨x, y, by simp⟩)
  | drw x y n => exact .inl (.inr ⟨x, y, n, rfl⟩)
  | _ => exact absurd rfl h

end Sys2Proof.Machine
end

section
/-! The invariant along instructions, steps, host operations and runs (10_state.md R25, R41). -/

namespace Sys2Proof.Machine

/-! ## Instructions and steps -/

theorem exec_keeps_inv {i : Instr} {s t : State} (hs : s.Inv) (h : exec i s = .next t) : t.Inv := by
  obtain ⟨hpc, hstack, hmem⟩ := hs
  obtain ⟨htpc, pc, rfl⟩ := exec_eq_next h
  exact ⟨htpc, stackOk_effect i hpc hstack, wf_mem_effect i hmem⟩

/-- Settles O15: a waiting machine stays, and a running one executes an instruction with its timers decremented, which
the invariant does not mention. -/
theorem stepKeepsTheInvariant : Obligations.StepKeepsTheInvariant := by
  intro s t hs h
  obtain ⟨-, rfl⟩ | ⟨-, -, i, -, hi⟩ := step_eq_next.mp h
  · exact hs
  · have htick : s.tickTimers.Inv := hs
    exact exec_keeps_inv htick hi

/-! ## The host's operations -/

/-- Settles O16: nothing is saved on the stack and memory lists nothing. -/
theorem resetMeetsTheInvariant : Obligations.ResetMeetsTheInvariant := by
  have hpc : PcOk State.reset.pc := by decide
  have hstack : State.reset.StackOk := fun _ hk => absurd hk (Nat.not_lt_zero _)
  exact ⟨hpc, hstack, Memory.wf_reset⟩

/-- `setKeys` writes registers, key flags and the latch, nothing else (46_host_interface.md R263, R264). -/
theorem State.setKeys_eq (s : State) (tr : Vector KeyTransition 16) :
    ∃ v keys keyWait, s.setKeys tr = { s with v := v, keys := keys, keyWait := keyWait } := by
  unfold State.setKeys State.resolveWait
  split
  · exact ⟨_, _, _, rfl⟩
  · exact ⟨_, _, _, rfl⟩
  · exact ⟨_, _, _, rfl⟩

/-- An accepted `load` writes bytes of memory, nothing else (46_host_interface.md R262). -/
theorem State.load_eq_next {bytes : List Byte} {s t : State} (h : s.load bytes = .next t) :
    t = { s with mem := s.mem.writeBytes Config.programOrigin bytes } := by
  unfold State.load at h
  split at h
  case isTrue => exact (Host.Outcome.next.inj h).symm
  case isFalse => nomatch h

/-- Settles O17: `setKeys` touches nothing the invariant mentions, and `load` writes through `writeBytes`. -/
theorem hostOperationsKeepTheInvariant : Obligations.HostOperationsKeepTheInvariant := by
  intro s hs
  obtain ⟨hpc, hstack, hmem⟩ := hs
  refine ⟨resetMeetsTheInvariant, fun tr => ?_, fun bytes t ht => ?_⟩
  · obtain ⟨v, keys, keyWait, htr⟩ := s.setKeys_eq tr
    rw [htr]
    exact ⟨hpc, hstack, hmem⟩
  · rw [State.load_eq_next ht]
    exact ⟨hpc, hstack, Memory.wf_writeBytes bytes hmem _⟩

/-! ## Runs -/

theorem State.apply_keeps_inv {o : HostOp} {s t : State} (hs : s.Inv) (h : s.apply o = .next t) : t.Inv := by
  obtain ⟨hreset, hkeys, hload⟩ := hostOperationsKeepTheInvariant s hs
  cases o with
  | reset => exact Host.Outcome.next.inj h ▸ hreset
  | load bytes => exact hload bytes t h
  | setKeys tr => exact Host.Outcome.next.inj h ▸ hkeys tr
  | step => exact stepKeepsTheInvariant s t hs h
  | displaySnapshot | soundActive => exact Host.Outcome.next.inj h ▸ hs

/-- A run that arrives somewhere got past its first operation. -/
theorem State.run_cons_eq_next {o : HostOp} {os : List HostOp} {s t : State} :
    State.run (o :: os) s = .next t ↔ ∃ u, s.apply o = .next u ∧ State.run os u = .next t := by
  rw [State.run]
  cases s.apply o <;> simp

theorem State.run_keeps_inv {ops : List HostOp} {s t : State} (hs : s.Inv) (h : State.run ops s = .next t) :
    t.Inv := by
  induction ops generalizing s with
  | nil => exact Host.Outcome.next.inj h ▸ hs
  | cons o os ih =>
    obtain ⟨u, hu, ht⟩ := State.run_cons_eq_next.mp h
    exact ih (State.apply_keeps_inv hs hu) ht

/-- Settles O18, by induction on the operations from the reset state. -/
theorem everyRunMeetsTheInvariant : Obligations.EveryRunMeetsTheInvariant :=
  fun _ _ => State.run_keeps_inv resetMeetsTheInvariant

end Sys2Proof.Machine
end

section
/-! The canonical form of memory determines it, and what reset memory reads (10_state.md R35, R38). -/

namespace Sys2Proof.Machine

theorem Memory.wf_cons {c : Host.Cell} {m : Memory} :
    Memory.wf (c :: m) ↔
      (∀ d ∈ m, c.1 < d.1) ∧ (c.1 < Config.memSize ∧ c.2 ≠ initialByte c.1) ∧ m.wf := by
  unfold Memory.wf
  rw [List.pairwise_cons, List.forall_mem_cons]
  tauto

/-- A canonical memory whose first cell lies below another memory does not read like it: at that cell the other holds
its reset contents. -/
theorem Memory.read_head_ne {c : Host.Cell} {m m' : Memory} (hm : Memory.wf (c :: m)) (hlt : ∀ d ∈ m', c.1 < d.1) :
    Memory.read (c :: m) c.1 ≠ m'.read c.1 := by
  obtain ⟨-, ⟨-, hc⟩, -⟩ := Memory.wf_cons.mp hm
  rw [Memory.read_cons, if_pos rfl, Memory.read_of_lt hlt]
  exact hc

/-- The cells of a canonical memory all lie at or above its first. -/
theorem Memory.lt_of_lt_head {c : Host.Cell} {m : Memory} (hm : Memory.wf (c :: m)) {a : Nat} (ha : a < c.1) :
    ∀ d ∈ c :: m, a < d.1 := by
  obtain ⟨hlt, -, -⟩ := Memory.wf_cons.mp hm
  exact List.forall_mem_cons.mpr ⟨ha, fun d hd => ha.trans (hlt d hd)⟩

/-- Canonical memories that read alike begin with the same cell and read alike after it. -/
theorem Memory.cons_read_inj {c c' : Host.Cell} {m m' : Memory} (hm : Memory.wf (c :: m)) (hm' : Memory.wf (c' :: m'))
    (h : ∀ a, Memory.read (c :: m) a = Memory.read (c' :: m') a) : c = c' ∧ ∀ a, m.read a = m'.read a := by
  have haddr : c.1 = c'.1 := by
    rcases Nat.lt_trichotomy c.1 c'.1 with hlt | heq | hlt
    · exact absurd (h c.1) (Memory.read_head_ne hm (Memory.lt_of_lt_head hm' hlt))
    · exact heq
    · exact absurd (h c'.1).symm (Memory.read_head_ne hm' (Memory.lt_of_lt_head hm hlt))
  simp only [Memory.read_cons, haddr] at h
  have hbyte : c.2 = c'.2 := by simpa using h c'.1
  refine ⟨Prod.ext haddr hbyte, fun a => ?_⟩
  by_cases ha : c'.1 = a
  · subst ha
    rw [Memory.read_of_lt (haddr ▸ (Memory.wf_cons.mp hm).1), Memory.read_of_lt (Memory.wf_cons.mp hm').1]
  · simpa [ha] using h a

/-- Settles O20, by induction on the cells of both memories. -/
theorem canonicalMemoryIsItsBytes : Obligations.CanonicalMemoryIsItsBytes := by
  intro m
  induction m with
  | nil =>
    intro m' _ hm' h
    cases m' with
    | nil => rfl
    | cons c' m' => exact absurd (h c'.1).symm (Memory.read_head_ne hm' (by simp))
  | cons c m ih =>
    intro m' hm hm' h
    cases m' with
    | nil => exact absurd (h c.1) (Memory.read_head_ne hm (by simp))
    | cons c' m' =>
      obtain ⟨rfl, htail⟩ := Memory.cons_read_inj hm hm' h
      obtain ⟨-, -, hwf⟩ := Memory.wf_cons.mp hm
      obtain ⟨-, -, hwf'⟩ := Memory.wf_cons.mp hm'
      rw [ih m' hwf hwf' htail]

/-! ## The reset contents -/

theorem initialByte_font {j : Nat} (hj : j < 80) :
    initialByte (Config.fontBase + j) = Config.font.getD j 0 := by
  rw [initialByte, if_pos (by simp only [Config.fontSize]; omega), Nat.add_sub_cancel_left]

theorem initialByte_outside_font {a : Nat} (ha : a < Config.fontBase ∨ Config.fontBase + 80 ≤ a) :
    initialByte a = 0 := by
  rw [initialByte, if_neg (by simp only [Config.fontSize]; omega)]

/-- Settles O57: both states are a `hostReset`, and each field of one is a row of R38. -/
theorem resetLeavesTheResetTable : Obligations.ResetLeavesTheResetTable := by
  intro s t ht
  obtain ⟨u, rfl⟩ : ∃ u : State, t = u.hostReset := by
    rcases ht with rfl | rfl
    · exact ⟨s, rfl⟩
    · exact ⟨State.reset, rfl⟩
  have hregs : ∀ r : RegIdx, u.hostReset.getV r = 0 := fun r => Vector.getElem_replicate r.isLt
  have hstack : ∀ k : Fin 12, u.hostReset.stack[k] = 0 := fun k => Vector.getElem_replicate k.isLt
  have hkeys : ∀ k : Fin 16, u.hostReset.keys[k] = false := fun k => Vector.getElem_replicate k.isLt
  exact ⟨hregs, rfl, rfl, rfl, hstack, fun _ hj => initialByte_font hj, fun _ _ ha => initialByte_outside_font ha,
    fun x _ y _ => blankDisplay_pixel x y, rfl, rfl, hkeys, rfl⟩

end Sys2Proof.Machine
end

section
/-! Who writes which part of the state: each statement reads one field off `effect`. -/

namespace Sys2Proof.Machine

/-- Settles O23: instructions by `disp_effect_ne`, host operations by what `load` and `setKeys` write. -/
theorem onlyClsAndDrwChangeTheDisplay : Obligations.OnlyClsAndDrwChangeTheDisplay := by
  refine ⟨fun i s t h hne => ?_, fun o s t h hreset hstep => ?_⟩
  · obtain ⟨-, pc, rfl⟩ := exec_eq_next h
    exact disp_effect_ne hne
  · cases o with
    | reset => exact absurd rfl hreset
    | step => exact absurd rfl hstep
    | load bytes => rw [State.load_eq_next h]
    | setKeys tr =>
      obtain ⟨v, keys, keyWait, htr⟩ := s.setKeys_eq tr
      rw [← Host.Outcome.next.inj h, htr]
    | displaySnapshot | soundActive => rw [← Host.Outcome.next.inj h]

/-- Settles O24, from the stack and the pointer of `effect`. -/
theorem onlyCallAndRetMoveTheStack : Obligations.OnlyCallAndRetMoveTheStack := by
  intro i s t h
  obtain ⟨-, pc, rfl⟩ := exec_eq_next h
  exact ⟨sp_effect_ne, fun _ => stack_effect_ne⟩

/-- Settles O25, from the index register of `effect`. -/
theorem onlyIndexInstructionsWriteTheIndex : Obligations.OnlyIndexInstructionsWriteTheIndex := by
  intro i s t h hne
  obtain ⟨-, pc, rfl⟩ := exec_eq_next h
  exact index_effect_ne hne

/-- Settles O26: a blocked step stays, and no instruction's `effect` has other key flags. -/
theorem noStepWritesKeyFlags : Obligations.NoStepWritesKeyFlags := by
  intro s t h
  obtain ⟨-, rfl⟩ | ⟨-, -, i, -, hi⟩ := step_eq_next.mp h
  · rfl
  · obtain ⟨-, pc, rfl⟩ := exec_eq_next hi
    exact keys_effect i s.tickTimers

/-- Settles O27, from the flag register of `effect`. -/
theorem flagRegisterHasItsWriters : Obligations.FlagRegisterHasItsWriters := by
  intro i s t h
  obtain ⟨-, pc, rfl⟩ := exec_eq_next h
  exact ⟨getV_vf_effect_of_writesFlag s, fun hne => or_assoc.mp (getV_vf_effect_ne hne)⟩

end Sys2Proof.Machine
end

section
/-! Stores into memory: which bytes an instruction's `effect` can change, and the bulk store read back by the next fetch
(20_memory.md R62, R76). -/

namespace Sys2Proof.Machine

/-- A byte that reads differently after a sequence of byte writes lies in the written range. -/
theorem Memory.mem_range_of_read_writeBytes_ne {m : Memory} {a a' : Nat} {bs : List Byte}
    (h : (m.writeBytes a bs).read a' ≠ m.read a') : a ≤ a' ∧ a' < a + bs.length := by
  by_contra hout
  exact h (Memory.read_writeBytes_of_outside bs m (by omega))

/-- Only `LD B` and the bulk store write memory, in their own bytes (43_memory_index.md R204, R205). -/
theorem read_mem_effect_ne {i : Instr} {s : State} {a : Nat} (h : (effect i s).mem.read a ≠ s.mem.read a) :
    (∃ x, i = .ldB x ∧ s.index.toNat ≤ a ∧ a < s.index.toNat + 3) ∨
      ∃ x, i = .ldMemVx x ∧ s.index.toNat ≤ a ∧ a < s.index.toNat + rangeLength x := by
  cases i with
  | ldB x => exact .inl ⟨x, rfl, Memory.mem_range_of_read_writeBytes_ne h⟩
  | ldMemVx x =>
    have hrange := Memory.mem_range_of_read_writeBytes_ne h
    rw [State.length_regRange] at hrange
    exact .inr ⟨x, rfl, hrange⟩
  | _ => exact absurd rfl h

/-- Settles O22, from the memory of `effect`. -/
theorem onlyStoresChangeMemory : Obligations.OnlyStoresChangeMemory := by
  intro i s t a h hne
  obtain ⟨-, pc, rfl⟩ := exec_eq_next h
  exact read_mem_effect_ne hne

/-- A bulk store that answers a next state has passed the range test over its `X + 1` bytes (20_memory.md R70). -/
theorem bulkStore_range_le {x : RegIdx} {s t : State} (h : exec (.ldMemVx x) s = .next t) :
    s.index.toNat + rangeLength x ≤ Config.memSize := by
  obtain ⟨hok, -⟩ := guardRange_eq_next.mp h
  exact (State.rangeOk_iff.mp hok).resolve_left (Nat.succ_ne_zero _)

/-- After a bulk store, byte `I + k` reads as `V[k]`, for every `k` up to `X` (43_memory_index.md R205). -/
theorem read_of_bulkStore {x : RegIdx} {s t : State} (hwf : s.mem.wf) (h : exec (.ldMemVx x) s = .next t) {k : Nat}
    (hk : k ≤ x.toNat) : t.mem.read (s.index.toNat + k) = s.getV (BitVec.ofNat 4 k) := by
  have hlen := s.length_regRange x
  have hle := bulkStore_range_le h
  have hk' : k < (s.regRange x).length := hlen ▸ Nat.lt_succ_of_le hk
  obtain ⟨-, pc, rfl⟩ := exec_eq_next h
  calc (s.mem.writeBytes s.index.toNat (s.regRange x)).read (s.index.toNat + k)
      = (s.regRange x)[k] := Memory.read_writeBytes_at _ hwf hk' (hlen ▸ hle)
    _ = s.getV (BitVec.ofNat 4 k) := s.getElem_regRange x k hk'

/-- Settles O21: the two bytes of the fetch are the stored registers `V[k]` and `V[k + 1]`. -/
theorem storedBytesAreFetchedAtOnce : Obligations.StoredBytesAreFetchedAtOnce := by
  intro x s t k hwf h hk hpc
  rw [State.fetchWord, hpc, Nat.add_assoc, read_of_bulkStore hwf h (by omega), read_of_bulkStore hwf h hk]

end Sys2Proof.Machine
end

section
/-! The decoder and the encoder are inverse to each other (30_encoding.md R91, R93, R96). -/

namespace Sys2Proof

/-! ## The groups of the decoder that hold more than one instruction (R93) -/

section Groups
variable {w : Word}

theorem decodeWord_group0 (h : opG w = 0x0#4) : decodeWord w = .ok (decodeGroup0 (opNNN w)) := by
  simp [decodeWord, decodeWordIn, h]

theorem decodeWord_group5 (h : opG w = 0x5#4) :
    decodeWord w = decodeXY0 (opN w) (.seReg (opX w) (opY w)) := by
  simp [decodeWord, decodeWordIn, h]

theorem decodeWord_group8 (h : opG w = 0x8#4) : decodeWord w = decodeGroup8 (opX w) (opY w) (opN w) := by
  simp [decodeWord, decodeWordIn, h]

theorem decodeWord_group9 (h : opG w = 0x9#4) :
    decodeWord w = decodeXY0 (opN w) (.sneReg (opX w) (opY w)) := by
  simp [decodeWord, decodeWordIn, h]

theorem decodeWord_groupE (h : opG w = 0xE#4) : decodeWord w = decodeGroupE (opX w) (opNN w) := by
  simp [decodeWord, decodeWordIn, h]

theorem decodeWord_groupF (h : opG w = 0xF#4) : decodeWord w = decodeGroupF (opX w) (opNN w) := by
  simp [decodeWord, decodeWordIn, h]

end Groups

/-! ## Decoding what was encoded -/

theorem wellFormed_sys {nnn : Imm12} : (Instr.sys nnn).wellFormed = true ↔ nnn ≠ 0x0E0#12 ∧ nnn ≠ 0x0EE#12 := by
  simp [Instr.wellFormed, Instr.wellFormedIn]

theorem decodeGroup0_of_ne {nnn : Imm12} (hcls : nnn ≠ 0x0E0#12) (hret : nnn ≠ 0x0EE#12) :
    decodeGroup0 nnn = .sys nnn := by
  rw [decodeGroup0, if_neg hcls, if_neg hret]

/-- Settles O1: the fields of the encoded word are the operands, and its group's handler answers the instruction. -/
theorem decodeOfEncodeIsTheInstruction : Obligations.DecodeOfEncodeIsTheInstruction := by
  intro i hwf
  cases i with
  | cls | ret => rfl
  | sys nnn =>
    obtain ⟨hcls, hret⟩ := wellFormed_sys.mp hwf
    rw [encode, decodeWord_group0 (opG_nnn _ nnn), opNNN_nnn, decodeGroup0_of_ne hcls hret]
  | jp nnn | call nnn | ldI nnn | jpV0 nnn | seImm x nn | sneImm x nn | ldImm x nn | addImm x nn | drw x y n =>
    simp [encode, decodeWord, decodeWordIn]
  | rnd x nn => simp [encode, decodeWord, decodeWordIn, Config.rndDefined]
  | seReg x y =>
    rw [encode, decodeWord_group5 (opG_xyn _ x y _), opX_xyn, opY_xyn, opN_xyn]
    rfl
  | sneReg x y =>
    rw [encode, decodeWord_group9 (opG_xyn _ x y _), opX_xyn, opY_xyn, opN_xyn]
    rfl
  | ldReg x y | orReg x y | andReg x y | xorReg x y | addReg x y | sub x y | shr x y | subn x y | shl x y =>
    rw [encode, decodeWord_group8 (opG_xyn _ x y _), opX_xyn, opY_xyn, opN_xyn]
    rfl
  | skp x | sknp x =>
    rw [encode, decodeWord_groupE (opG_xnn _ x _), opX_xnn, opNN_xnn]
    rfl
  | ldVxDt x | ldVxK x | ldDtVx x | ldStVx x | addI x | ldF x | ldB x | ldMemVx x | ldVxMem x =>
    rw [encode, decodeWord_groupF (opG_xnn _ x _), opX_xnn, opNN_xnn]
    rfl

/-! ## A word from its fields (R91) -/

section Fields
variable {w : Word} {g : Nibble}

theorem nnn_of_opG (hg : opG w = g) : g ++ opNNN w = w := by
  apply BitVec.eq_of_toNat_eq
  rw [← hg, toNat_nnn, toNat_opG, toNat_opNNN]
  omega

theorem xnn_of_opG (hg : opG w = g) : g ++ opX w ++ opNN w = w := by
  apply BitVec.eq_of_toNat_eq
  rw [← hg, toNat_xnn, toNat_opG, toNat_opX, toNat_opNN]
  omega

theorem xyn_of_opG_opN {n : Nibble} (hg : opG w = g) (hn : opN w = n) : g ++ opX w ++ opY w ++ n = w := by
  apply BitVec.eq_of_toNat_eq
  rw [← hg, ← hn, toNat_xyn, toNat_opG, toNat_opX, toNat_opY, toNat_opN]
  omega

end Fields

/-! ## Encoding what was decoded -/

theorem encode_decodeGroup0 (nnn : Imm12) :
    (decodeGroup0 nnn).wellFormed = true ∧ encode (decodeGroup0 nnn) = 0x0#4 ++ nnn := by
  unfold decodeGroup0
  split
  case isTrue h => exact ⟨rfl, h ▸ rfl⟩
  case isFalse hcls =>
    split
    case isTrue h => exact ⟨rfl, h ▸ rfl⟩
    case isFalse hret => exact ⟨wellFormed_sys.mpr ⟨hcls, hret⟩, rfl⟩

theorem encode_of_decodeGroup8 {x y : RegIdx} {n : Nibble} {i : Instr} (h : decodeGroup8 x y n = .ok i) :
    i.wellFormed = true ∧ encode i = 0x8#4 ++ x ++ y ++ n := by
  unfold decodeGroup8 at h
  split at h
  case h_10 => nomatch h
  all_goals
    next hn =>
      obtain ⟨-, rfl⟩ := BitVec.toNat_eq_nat.mp hn
      cases h
      exact ⟨rfl, rfl⟩

theorem encode_of_decodeGroupE {x : RegIdx} {nn : Byte} {i : Instr} (h : decodeGroupE x nn = .ok i) :
    i.wellFormed = true ∧ encode i = 0xE#4 ++ x ++ nn := by
  unfold decodeGroupE at h
  split at h
  case h_3 => nomatch h
  all_goals
    next hnn =>
      obtain ⟨-, rfl⟩ := BitVec.toNat_eq_nat.mp hnn
      cases h
      exact ⟨rfl, rfl⟩

theorem encode_of_decodeGroupF {x : RegIdx} {nn : Byte} {i : Instr} (h : decodeGroupF x nn = .ok i) :
    i.wellFormed = true ∧ encode i = 0xF#4 ++ x ++ nn := by
  unfold decodeGroupF at h
  split at h
  case h_10 => nomatch h
  all_goals
    next hnn =>
      obtain ⟨-, rfl⟩ := BitVec.toNat_eq_nat.mp hnn
      cases h
      exact ⟨rfl, rfl⟩

/-- Settles O2, in the cases of the top nibble: a group of one instruction keeps every field of the word, and so do the
handlers of the other groups. -/
theorem encodeOfDecodeIsTheWord : Obligations.EncodeOfDecodeIsTheWord := by
  intro w i h
  unfold decodeWord decodeWordIn at h
  split at h
  -- group 0
  case h_1 hg =>
    cases h
    exact (encode_decodeGroup0 _).imp_right (·.trans (nnn_of_opG (BitVec.eq_of_toNat_eq hg)))
  -- groups 1, 2, A and B
  case h_2 hg | h_3 hg | h_11 hg | h_12 hg =>
    cases h
    exact ⟨rfl, nnn_of_opG (BitVec.eq_of_toNat_eq hg)⟩
  -- groups 3, 4, 6, 7 and C
  case h_4 hg | h_5 hg | h_7 hg | h_8 hg | h_13 hg =>
    cases h
    exact ⟨rfl, xnn_of_opG (BitVec.eq_of_toNat_eq hg)⟩
  -- groups 5 and 9
  case h_6 hg | h_10 hg =>
    obtain ⟨hn, rfl⟩ := decodeXY0_eq_ok.mp h
    exact ⟨rfl, xyn_of_opG_opN (BitVec.eq_of_toNat_eq hg) hn⟩
  -- groups 8, D, E and F
  case h_9 hg =>
    exact (encode_of_decodeGroup8 h).imp_right (·.trans (xyn_of_opG_opN (BitVec.eq_of_toNat_eq hg) rfl))
  case h_14 hg =>
    cases h
    exact ⟨rfl, xyn_of_opG_opN (BitVec.eq_of_toNat_eq hg) rfl⟩
  case h_15 hg =>
    exact (encode_of_decodeGroupE h).imp_right (·.trans (xnn_of_opG (BitVec.eq_of_toNat_eq hg)))
  case h_16 hg =>
    exact (encode_of_decodeGroupF h).imp_right (·.trans (xnn_of_opG (BitVec.eq_of_toNat_eq hg)))
  -- the last arm rejects
  case h_17 => nomatch h

/-- Settles O6, by evaluating the decoder on each word. -/
theorem sampleWordsDecodeRight : Obligations.SampleWordsDecodeRight := by
  unfold Obligations.SampleWordsDecodeRight
  decide

end Sys2Proof
end

section
/-! Which words are rejected, and how a step that fetches one ends (30_encoding.md R97 to R99). -/

namespace Sys2Proof

/-- The low nibbles of group 8 that are no instruction (R97). -/
abbrev unlisted8 : List Nibble := [0x8#4, 0x9#4, 0xA#4, 0xB#4, 0xC#4, 0xD#4, 0xF#4]

/-- The low bytes of group E that are instructions (R96). -/
abbrev listedE : List Byte := [0x9E#8, 0xA1#8]

/-- The low bytes of group F that are instructions (R96). -/
abbrev listedF : List Byte := [0x07#8, 0x0A#8, 0x15#8, 0x18#8, 0x1E#8, 0x29#8, 0x33#8, 0x55#8, 0x65#8]

/-- The words the spec rejects, by the name of the fault they raise (R97, R98). -/
def RejectedAs (w : Word) : Reject → Prop
  | .decodeError =>
    (opG w = 0x8 ∧ opN w ∈ unlisted8) ∨
    (opG w = 0xE ∧ opNN w ∉ listedE) ∨
    (opG w = 0xF ∧ opNN w ∉ listedF)
  | .malformedEncoding => (opG w = 0x5 ∨ opG w = 0x9) ∧ opN w ≠ 0

theorem decodeXY0_eq_error {n : Nibble} {i : Instr} {r : Reject} :
    decodeXY0 n i = .error r ↔ n ≠ 0 ∧ r = .malformedEncoding := by
  unfold decodeXY0
  split
  case isTrue h => simp [h]
  case isFalse h => simp [h, eq_comm]

theorem decodeGroup8_eq_error {x y : RegIdx} {n : Nibble} {r : Reject} :
    decodeGroup8 x y n = .error r ↔ n ∈ unlisted8 ∧ r = .decodeError := by
  unfold decodeGroup8
  split
  -- the arm of all other values
  case h_10 =>
    refine ⟨fun h => ⟨?_, (Except.error.inj h).symm⟩, fun ⟨_, h⟩ => h ▸ rfl⟩
    simp only [List.mem_cons, List.not_mem_nil, or_false, imp_false, ← BitVec.toNat_inj, BitVec.toNat_ofNat] at *
    omega
  all_goals
    next hn =>
      obtain ⟨-, rfl⟩ := BitVec.toNat_eq_nat.mp hn
      simp

theorem decodeGroupE_eq_error {x : RegIdx} {nn : Byte} {r : Reject} :
    decodeGroupE x nn = .error r ↔ nn ∉ listedE ∧ r = .decodeError := by
  unfold decodeGroupE
  split
  -- the arm of all other values
  case h_3 =>
    refine ⟨fun h => ⟨?_, (Except.error.inj h).symm⟩, fun ⟨_, h⟩ => h ▸ rfl⟩
    simp only [List.mem_cons, List.not_mem_nil, or_false, imp_false, ← BitVec.toNat_inj, BitVec.toNat_ofNat] at *
    omega
  all_goals
    next hnn =>
      obtain ⟨-, rfl⟩ := BitVec.toNat_eq_nat.mp hnn
      simp

theorem decodeGroupF_eq_error {x : RegIdx} {nn : Byte} {r : Reject} :
    decodeGroupF x nn = .error r ↔ nn ∉ listedF ∧ r = .decodeError := by
  unfold decodeGroupF
  split
  -- the arm of all other values
  case h_10 =>
    refine ⟨fun h => ⟨?_, (Except.error.inj h).symm⟩, fun ⟨_, h⟩ => h ▸ rfl⟩
    simp only [List.mem_cons, List.not_mem_nil, or_false, imp_false, ← BitVec.toNat_inj, BitVec.toNat_ofNat] at *
    omega
  all_goals
    next hnn =>
      obtain ⟨-, rfl⟩ := BitVec.toNat_eq_nat.mp hnn
      simp

/-- The decoder rejects exactly the words of the spec, each by its name. -/
theorem decodeWord_eq_error {w : Word} {r : Reject} : decodeWord w = .error r ↔ RejectedAs w r := by
  constructor
  · intro h
    unfold decodeWord decodeWordIn at h
    split at h
    -- groups 5 and 9
    case h_6 hg =>
      obtain ⟨hn, rfl⟩ := decodeXY0_eq_error.mp h
      exact ⟨.inl (BitVec.eq_of_toNat_eq hg), hn⟩
    case h_10 hg =>
      obtain ⟨hn, rfl⟩ := decodeXY0_eq_error.mp h
      exact ⟨.inr (BitVec.eq_of_toNat_eq hg), hn⟩
    -- groups 8, E and F
    case h_9 hg =>
      obtain ⟨hn, rfl⟩ := decodeGroup8_eq_error.mp h
      exact .inl ⟨BitVec.eq_of_toNat_eq hg, hn⟩
    case h_15 hg =>
      obtain ⟨hnn, rfl⟩ := decodeGroupE_eq_error.mp h
      exact .inr (.inl ⟨BitVec.eq_of_toNat_eq hg, hnn⟩)
    case h_16 hg =>
      obtain ⟨hnn, rfl⟩ := decodeGroupF_eq_error.mp h
      exact .inr (.inr ⟨BitVec.eq_of_toNat_eq hg, hnn⟩)
    -- no nibble is above 0xF
    case h_17 =>
      simp only [imp_false] at *
      omega
    all_goals nomatch h
  · intro h
    cases r with
    | decodeError =>
      obtain ⟨hg, hn⟩ | ⟨hg, hnn⟩ | ⟨hg, hnn⟩ := h
      · rw [decodeWord_group8 hg]
        exact decodeGroup8_eq_error.mpr ⟨hn, rfl⟩
      · rw [decodeWord_groupE hg]
        exact decodeGroupE_eq_error.mpr ⟨hnn, rfl⟩
      · rw [decodeWord_groupF hg]
        exact decodeGroupF_eq_error.mpr ⟨hnn, rfl⟩
    | malformedEncoding =>
      obtain ⟨hg | hg, hn⟩ := h
      · rw [decodeWord_group5 hg]
        exact decodeXY0_eq_error.mpr ⟨hn, rfl⟩
      · rw [decodeWord_group9 hg]
        exact decodeXY0_eq_error.mpr ⟨hn, rfl⟩

end Sys2Proof

namespace Sys2Proof.Machine

/-- The fault of a running machine that fetches a rejected word (R125). -/
theorem step_of_error {s : State} {r : Reject} (hk : s.keyWait = none) (hpc : PcOk s.pc)
    (h : decodeWord s.fetchWord = .error r) : step s = .fault (rejectFault r s.fetchWord s.pc) := by
  rw [step_of_running hk hpc, executeWord_of_error s h]

/-- Settles O4: the two equivalences are the two names of `RejectedAs`. -/
theorem rejectedWordsAreThoseOfTheSpec : Obligations.RejectedWordsAreThoseOfTheSpec := by
  intro w
  refine ⟨decodeWord_eq_error, decodeWord_eq_error, ?_⟩
  rintro s hk hpc rfl
  exact ⟨step_of_error hk hpc, step_of_error hk hpc⟩

/-- Settles O5: the word reported is the one fetched, since encoding reverses decoding. -/
theorem nativeCallsAlwaysFault : Obligations.NativeCallsAlwaysFault := by
  have hexec : ∀ (nnn : Imm12) (s : State),
      exec (.sys nnn) s = .fault (.unsupportedNative (encode (.sys nnn)) s.pc) := fun _ _ => rfl
  refine ⟨hexec, fun w hg hcls hret => ?_⟩
  have hd : decodeWord w = .ok (.sys (opNNN w)) := by
    rw [decodeWord_group0 hg, decodeGroup0_of_ne hcls hret]
  refine ⟨hd, ?_⟩
  rintro s hk hpc rfl
  obtain ⟨-, hw⟩ := encodeOfDecodeIsTheWord _ _ hd
  rw [step_of_running hk hpc, executeWord_of_ok s hd, hexec, hw, State.tickTimers_pc]

end Sys2Proof.Machine
end

section
/-! The decoder and the opcode table (30_encoding.md R94, R96). -/

namespace Sys2Proof.Laws.RowOfWord

/-- Every instruction's word lies in the instruction's own row. -/
theorem all : ∀ i : Instr, Statement i
  | .cls => cls
  | .ret => ret
  | .sys nnn => sys nnn
  | .jp nnn => jp nnn
  | .call nnn => call nnn
  | .seImm x nn => seImm x nn
  | .sneImm x nn => sneImm x nn
  | .seReg x y => seReg x y
  | .ldImm x nn => ldImm x nn
  | .addImm x nn => addImm x nn
  | .ldReg x y => ldReg x y
  | .orReg x y => orReg x y
  | .andReg x y => andReg x y
  | .xorReg x y => xorReg x y
  | .addReg x y => addReg x y
  | .sub x y => sub x y
  | .shr x y => shr x y
  | .subn x y => subn x y
  | .shl x y => shl x y
  | .sneReg x y => sneReg x y
  | .ldI nnn => ldI nnn
  | .jpV0 nnn => jpV0 nnn
  | .rnd x nn => rnd x nn
  | .drw x y n => drw x y n
  | .skp x => skp x
  | .sknp x => sknp x
  | .ldVxDt x => ldVxDt x
  | .ldVxK x => ldVxK x
  | .ldDtVx x => ldDtVx x
  | .ldStVx x => ldStVx x
  | .addI x => addI x
  | .ldF x => ldF x
  | .ldB x => ldB x
  | .ldMemVx x => ldMemVx x
  | .ldVxMem x => ldVxMem x

end Sys2Proof.Laws.RowOfWord

namespace Sys2Proof

namespace OpcodeRow

variable {a b : OpcodeRow} {w : Word}

/-- The bits of a covered word that the row fixes. -/
theorem and_mask_of_covers (h : a.covers w = true) : w &&& a.mask = a.value := beq_iff_eq.mp h

/-- A covered word has the row's value in a field that the row fixes whole. -/
theorem field_eq_of_covers {lo n : Nat} (h : a.covers w = true)
    (hmask : a.mask.extractLsb' lo n = BitVec.allOnes n) : w.extractLsb' lo n = a.value.extractLsb' lo n := by
  rw [← and_mask_of_covers h, BitVec.extractLsb'_and, hmask, BitVec.and_allOnes]

/-- Two rows that cover one word agree on the bits that both fix. -/
theorem agree_of_covers (ha : a.covers w = true) (hb : b.covers w = true) :
    a.value &&& b.mask = b.value &&& a.mask := by
  rw [← and_mask_of_covers ha, ← and_mask_of_covers hb, BitVec.and_assoc, BitVec.and_assoc,
    BitVec.and_comm a.mask]

end OpcodeRow

/-! ## Facts read off the 35 rows -/

/-- Only `0NNN`, row 2, agrees with an earlier row on the bits that both fix. -/
theorem eq_two_of_rows_agree : ∀ k : Fin opcodeTable.length, ∀ j : Fin k,
    opcodeTable[j].value &&& opcodeTable[k].mask = opcodeTable[k].value &&& opcodeTable[j].mask → k.val = 2 := by
  decide

/-- Every row fixes the top nibble. -/
theorem opG_mask_of_mem : ∀ r ∈ opcodeTable, opG r.mask = 0xF := by decide

/-- The rows of the groups that reject words fix the nibble or byte their group is decoded on, to a value it lists (R97,
R98). -/
theorem listed_of_mem : ∀ r ∈ opcodeTable,
    (opG r.value = 0x8 → opN r.mask = 0xF ∧ opN r.value ∉ unlisted8) ∧
    (opG r.value = 0xE → opNN r.mask = 0xFF ∧ opNN r.value ∈ listedE) ∧
    (opG r.value = 0xF → opNN r.mask = 0xFF ∧ opNN r.value ∈ listedF) ∧
    (opG r.value = 0x5 ∨ opG r.value = 0x9 → opN r.mask = 0xF ∧ opN r.value = 0) := by
  decide

/-! ## Rows and words -/

/-- No row covers a rejected word. -/
theorem not_rejectedAs_of_covers {r : OpcodeRow} {w : Word} (hr : r ∈ opcodeTable) (h : r.covers w = true)
    (e : Reject) : ¬ RejectedAs w e := by
  obtain ⟨h8, hE, hF, h59⟩ := listed_of_mem r hr
  have hG : opG w = opG r.value := r.field_eq_of_covers h (opG_mask_of_mem r hr)
  have hN : opN r.mask = 0xF → opN w = opN r.value := r.field_eq_of_covers h
  have hNN : opNN r.mask = 0xFF → opNN w = opNN r.value := r.field_eq_of_covers h
  cases e with
  | decodeError =>
    rintro (⟨hg, hn⟩ | ⟨hg, hnn⟩ | ⟨hg, hnn⟩)
    · obtain ⟨hmask, hlist⟩ := h8 (hG ▸ hg)
      exact hlist (hN hmask ▸ hn)
    · obtain ⟨hmask, hlist⟩ := hE (hG ▸ hg)
      exact hnn (hNN hmask ▸ hlist)
    · obtain ⟨hmask, hlist⟩ := hF (hG ▸ hg)
      exact hnn (hNN hmask ▸ hlist)
  | malformedEncoding =>
    rintro ⟨hg, hn⟩
    obtain ⟨hmask, hzero⟩ := h59 (hG ▸ hg)
    exact hn ((hN hmask).trans hzero)

/-- The later of two rows that cover one word is `0NNN`. -/
theorem eq_two_of_covers {w : Word} {j k : Nat} {a b : OpcodeRow} (hj : opcodeTable[j]? = some a)
    (hk : opcodeTable[k]? = some b) (hjk : j < k) (ha : a.covers w = true) (hb : b.covers w = true) : k = 2 := by
  obtain ⟨_, rfl⟩ := List.getElem?_eq_some_iff.mp hj
  obtain ⟨hk', rfl⟩ := List.getElem?_eq_some_iff.mp hk
  exact eq_two_of_rows_agree ⟨k, hk'⟩ ⟨j, hjk⟩ (OpcodeRow.agree_of_covers ha hb)

/-- Rows 0 and 1 cover one word each, and it decodes to the row's own instruction. -/
theorem decodeWord_of_covers_exact {w : Word} {j : Nat} {a : OpcodeRow} (hj : opcodeTable[j]? = some a) (hlt : j < 2)
    (ha : a.covers w = true) : ∃ i, decodeWord w = .ok i ∧ i.rowIndex = j := by
  have hw := OpcodeRow.and_mask_of_covers ha
  obtain rfl | rfl : j = 0 ∨ j = 1 := by omega
  · obtain rfl := Option.some.inj hj
    obtain rfl : w = 0x00E0 := BitVec.and_allOnes.symm.trans hw
    exact ⟨.cls, rfl, rfl⟩
  · obtain rfl := Option.some.inj hj
    obtain rfl : w = 0x00EE := BitVec.and_allOnes.symm.trans hw
    exact ⟨.ret, rfl, rfl⟩

/-- A word that decodes is covered by no row before its instruction's: such a row would be an exact one, whose word
decodes to another instruction. -/
theorem not_covers_of_lt_rowIndex {w : Word} {i : Instr} (h : decodeWord w = .ok i) {j : Nat} {a : OpcodeRow}
    (hj : opcodeTable[j]? = some a) (hji : j < i.rowIndex) : ¬ a.covers w = true := by
  intro ha
  obtain ⟨hwf, hw⟩ := encodeOfDecodeIsTheWord w i h
  obtain ⟨r, hr, hc⟩ := Laws.RowOfWord.all i hwf
  have htwo : i.rowIndex = 2 := eq_two_of_covers hj hr hji ha (hw ▸ hc)
  obtain ⟨i', hi', hj'⟩ := decodeWord_of_covers_exact hj (by omega) ha
  obtain rfl : i = i' := Except.ok.inj (h.symm.trans hi')
  omega

/-- Settles O3: a word that decodes lies in its instruction's row and in no earlier one, a rejected word lies in none, and
rows that overlap agree on the bits both fix. -/
theorem decoderFollowsTheOpcodeTable : Obligations.DecoderFollowsTheOpcodeTable := by
  refine ⟨fun w i h => ?_, fun w e h => ?_, fun w j k a b => eq_two_of_covers⟩
  · obtain ⟨hwf, hw⟩ := encodeOfDecodeIsTheWord w i h
    obtain ⟨r, hr, hc⟩ := Laws.RowOfWord.all i hwf
    obtain ⟨hlt, rfl⟩ := List.getElem?_eq_some_iff.mp hr
    refine List.findIdx?_eq_some_iff_getElem.mpr ⟨hlt, hw ▸ hc, fun j hji => ?_⟩
    exact not_covers_of_lt_rowIndex h (List.getElem?_eq_getElem _) hji
  · refine List.findIdx?_eq_none_iff.mpr fun r hr => ?_
    exact Bool.eq_false_iff.mpr fun hc => not_rejectedAs_of_covers hr hc e (decodeWord_eq_error.mp h)

end Sys2Proof
end

section
/-! The step cycle: the new pc of every instruction, and how a step ends (40_step_and_dispatch.md R121 to R129). -/

namespace Sys2Proof.Machine

/-! ## The pc that an answer carries (R127, R128) -/

theorem toNat_pc_of_setPc {i : Instr} {n : Nat} {s t : State} (h : setPc i n s = .next t) : t.pc.toNat = n := by
  obtain ⟨hle, -, rfl⟩ := setPc_eq_next.mp h
  exact toNat_ofNat_of_le (hle.trans (Nat.sub_le _ _))

/-- A skip goes by its condition, read as the proposition it decides. -/
theorem toNat_pc_of_skipIf {i : Instr} {b : Bool} {c : Prop} [Decidable c] {s t : State} (hc : b = true ↔ c)
    (h : skipIf i b s = .next t) : t.pc.toNat = if c then s.pc.toNat + 4 else s.pc.toNat + 2 := by
  rw [toNat_pc_of_setPc h, apply_ite (s.pc.toNat + ·)]
  exact if_congr hc rfl rfl

/-- The slot `RET` reads is the one below the stack pointer (42_control_flow.md R173). -/
theorem toNat_pc_of_ret {s t : State} (h : exec .ret s = .next t) :
    t.pc.toNat = (s.stack[s.sp.val - 1]?.getD 0).toNat := by
  obtain ⟨_, hn⟩ := of_raise_or_eq_next h
  rw [toNat_pc_of_setPc hn, Vector.getElem?_eq_getElem, Option.getD_some]

theorem State.keyHeld_iff {s : State} {k : Byte} : s.keyHeld k = true ↔ s.keys[k.toNat]? = some true := by
  rw [State.keyHeld]
  cases s.keys[k.toNat]? <;> simp

/-- A key code up to 15 names a key, which is released where it is not held (10_state.md R32). -/
theorem State.not_keyHeld_iff {s : State} {k : Byte} (hk : ¬ 15 < k.toNat) :
    (!s.keyHeld k) = true ↔ s.keys[k.toNat]? = some false := by
  rw [State.keyHeld, Vector.getElem?_eq_getElem (by omega)]
  simp

/-- Settles O14: an instruction that answers has passed its tests and ends in `SetPc` on its target, or in a skip. -/
theorem newPcOfEveryInstruction : Obligations.NewPcOfEveryInstruction := by
  intro i s t h
  cases i with
  | sys nnn => nomatch h
  | call nnn =>
    obtain ⟨_, hn⟩ := of_raise_or_eq_next h
    exact toNat_pc_of_setPc hn
  | ret => exact toNat_pc_of_ret h
  | seImm x nn | seReg x y => exact toNat_pc_of_skipIf beq_iff_eq h
  | sneImm x nn | sneReg x y => exact toNat_pc_of_skipIf bne_iff_ne h
  | skp x =>
    obtain ⟨_, hn⟩ := of_raise_or_eq_next h
    exact toNat_pc_of_skipIf State.keyHeld_iff hn
  | sknp x =>
    obtain ⟨hk, hn⟩ := of_raise_or_eq_next h
    exact toNat_pc_of_skipIf (State.not_keyHeld_iff hk) hn
  | drw x y n | ldB x | ldMemVx x | ldVxMem x =>
    obtain ⟨-, hn⟩ := guardRange_eq_next.mp h
    exact toNat_pc_of_setPc hn
  | _ => exact toNat_pc_of_setPc h

/-! ## No instruction is refused -/

theorem guardRange_ne_refused {i : Instr} {l : Nat} {s : State} {k : Host.Outcome State Fault Refusal} {r : Refusal}
    (hk : k ≠ .refused r) : guardRange i l s k ≠ .refused r := by
  unfold guardRange
  split
  · exact hk
  · exact nofun

/-- A meaning that begins with a test for a fatal error is refused only where its rest is. -/
theorem raise_or_ne_refused {c : Prop} [Decidable c] {cause : Word → Word → Fault} {i : Instr} {s : State}
    {k : ¬ c → Host.Outcome State Fault Refusal} {r : Refusal} (hk : ∀ hc, k hc ≠ .refused r) :
    (if hc : c then raise cause i s else k hc) ≠ .refused r := by
  split
  · exact nofun
  · exact hk _

/-- Every meaning ends in `SetPc` or in a fatal error, and neither is a refusal. -/
theorem exec_ne_refused {i : Instr} {s : State} {r : Refusal} : exec i s ≠ .refused r := by
  cases i with
  | sys nnn => exact nofun
  | ret | call nnn | skp x | sknp x => exact raise_or_ne_refused fun _ => setPc_ne_refused
  | drw x y n | ldB x | ldMemVx x | ldVxMem x => exact guardRange_ne_refused setPc_ne_refused
  | _ => exact setPc_ne_refused

/-- Settles O19: under the pc invariant a step stays, faults at decode or is an instruction's. -/
theorem noStepIsRefused : Obligations.NoStepIsRefused := by
  intro s hs r
  obtain ⟨hpc, -, -⟩ := hs
  cases hk : s.keyWait with
  | some x =>
    rw [step_of_waiting hk]
    exact nofun
  | none =>
    cases hd : decodeWord s.fetchWord with
    | error e =>
      rw [step_of_error hk hpc hd]
      exact nofun
    | ok i =>
      rw [step_of_running hk hpc, executeWord_of_ok s hd]
      exact exec_ne_refused

/-! ## Fetch and timers (R122, R124) -/

theorem toNat_fetchWord (s : State) :
    s.fetchWord.toNat = 256 * (s.mem.read s.pc.toNat).toNat + (s.mem.read (s.pc.toNat + 1)).toNat :=
  (BitVec.toNat_append _ _).trans (by
    rw [← Nat.shiftLeft_add_eq_or_of_lt (BitVec.isLt _), Nat.shiftLeft_eq, Nat.mul_comm])

/-- Settles O7: the word is the two bytes put together, and the pc is at most `MEM_SIZE - 2`. -/
theorem fetchIsBigEndianAndInsideMemory : Obligations.FetchIsBigEndianAndInsideMemory := by
  intro s
  refine ⟨toNat_fetchWord s, ?_⟩
  rintro ⟨-, hle⟩
  simp only [Config.memSize] at hle ⊢
  omega

/-- Natural subtraction supplies the floor at 0. -/
theorem decrement_eq_ofNat (t : Byte) : decrement t = BitVec.ofNat 8 (t.toNat - 1) := by
  rw [← toNat_decrement, BitVec.ofNat_toNat, BitVec.setWidth_eq]

/-- Settles O8: the two faults of the decoder are `step_of_error`, and the timers are those of `tickTimers`. -/
theorem stepRunsTheDecodedInstruction : Obligations.StepRunsTheDecodedInstruction := by
  intro s hk hpc
  refine ⟨fun i hd => ?_, step_of_error hk hpc, step_of_error hk hpc⟩
  rw [step_of_running hk hpc, executeWord_of_ok s hd, State.tickTimers, decrement_eq_ofNat, decrement_eq_ofNat]

/-! ## Blocked and faulting steps (R121, R126) -/

/-- Settles O9: an accepted `load` writes memory only, the observers nothing, and the step is blocked. -/
theorem blockedStepChangesNothing : Obligations.BlockedStepChangesNothing := by
  refine ⟨fun s r hk => ⟨step_of_waiting hk, by simp only [stepReport, hk]⟩, fun s t r o hk h ht => ?_⟩
  have hne : t.keyWait ≠ s.keyWait := by simp [hk, ht]
  cases o with
  | reset => exact .inl rfl
  | setKeys tr => exact .inr ⟨tr, rfl⟩
  | load bytes => exact absurd (by rw [State.load_eq_next h]) hne
  | step => exact absurd (by rw [Host.Outcome.next.inj ((step_of_waiting hk).symm.trans h)]) hne
  | displaySnapshot | soundActive => exact absurd (by rw [Host.Outcome.next.inj h]) hne

/-- Settles O10: a faulting step is one of a running machine, and the state after it is the state before. -/
theorem faultingStepCommitsNothing : Obligations.FaultingStepCommitsNothing := by
  intro s f h
  obtain ⟨hk, -⟩ := step_eq_fault.mp h
  have hsame : stateAfterStep s = s := by simp only [stateAfterStep, h]
  have hreport : stepReport s = .fault f := by simp only [stepReport, hk, h]
  exact ⟨hsame, hreport, hsame.symm ▸ h⟩

end Sys2Proof.Machine
end

section
/-! Frames: a state that differs from `s` only where `w` allows stays so under a further write that `w` allows. -/

namespace Sys2Proof.Machine

theorem Frame.refl (w : Touches) (s : State) : Frame w s s :=
  ⟨fun _ _ => rfl, fun _ => rfl, fun _ => ⟨rfl, rfl⟩, fun _ => rfl, fun _ => rfl, fun _ => rfl, fun _ => rfl,
    fun _ => rfl, rfl, fun _ _ => rfl⟩

section
variable {w : Touches} {s t : State} (h : Frame w s t)
include h

/-- The pc is outside every frame. -/
theorem Frame.withPc (p : Word) : Frame w s { t with pc := p } := h

theorem Frame.setV {x : RegIdx} (hx : x ∈ w.regs) (b : Byte) : Frame w s (t.setV x b) := by
  obtain ⟨hregs, hrest⟩ := h
  refine ⟨fun r hr => ?_, hrest⟩
  have hne : r ≠ x := fun he => hr (he ▸ hx)
  rw [State.getV_setV_of_ne t b hne, hregs r hr]

theorem Frame.setFlag (hx : vf ∈ w.regs) (f : Bool) : Frame w s (t.setFlag f) := h.setV hx _

theorem Frame.withDraws (hw : w.draws = true) (n : Nat) : Frame w s { t with draws := n } := by
  obtain ⟨hregs, hindex, hstack, hdisp, hdt, hst, hwait, -, hkeys, hmem⟩ := h
  exact ⟨hregs, hindex, hstack, hdisp, hdt, hst, hwait, fun hf => by simp [hw] at hf, hkeys, hmem⟩

end

end Sys2Proof.Machine
end

section
/-! Arithmetic and logic (41_arith_logic.md): each instruction hands `SetPc(pc + 2)` a state with one register write,
or with a register write and then the flag. -/

namespace Sys2Proof.Machine

/-! ## An instruction that ends in `advance` (40_step_and_dispatch.md R128) -/

section
variable {i : Instr} {s u : State} (hi : exec i s = advance i u) (hpc : u.pc = s.pc)
include hi hpc

theorem exec_of_canAdvance (h : s.CanAdvance) : exec i s = .next { u with pc := s.pc + 2 } := by
  have hu : u.CanAdvance := by rwa [State.CanAdvance, hpc]
  rw [hi, advance_of_canAdvance i hu, hpc]

theorem exec_atLastWord (h : s.AtLastWord) : exec i s = .fault (.pcOutOfBounds (encode i) s.pc) := by
  have hu : u.AtLastWord := by rwa [State.AtLastWord, hpc]
  rw [hi, advance_atLastWord i hu, hpc]

end

/-- One register written, no flag (R141 to R146). -/
theorem exec_writes_register {i : Instr} {s : State} {x : RegIdx} {b : Byte}
    (hi : exec i s = advance i (s.setV x b)) (h : s.CanAdvance) :
    ∃ t, exec i s = .next t ∧ t.getV x = b ∧ t.pc = s.pc + 2 ∧ Frame { regs := [x] } s t :=
  ⟨_, exec_of_canAdvance hi rfl h, s.getV_setV_same x b, rfl,
    ((Frame.refl _ s).setV List.mem_cons_self b).withPc _⟩

/-- The result is written first and the flag last, so with `x` = 0xF the flag remains (R154). -/
theorem exec_writes_register_then_flag {i : Instr} {s : State} {x : RegIdx} {b : Byte} {f : Bool} {n : Nat} {c : Prop}
    [Decidable c] (hi : exec i s = advance i ((s.setV x b).setFlag f)) (hb : b.toNat = n) (hf : f = true ↔ c)
    (h : s.CanAdvance) :
    ∃ t, exec i s = .next t ∧ (x ≠ 0xF → (t.getV x).toNat = n) ∧ t.getV 0xF = (if c then 1 else 0) ∧
      t.pc = s.pc + 2 ∧ Frame { regs := [x, 0xF] } s t := by
  refine ⟨_, exec_of_canAdvance hi rfl h, fun hx => ?_, ?_, rfl, ?frame⟩
  · change (((s.setV x b).setFlag f).getV x).toNat = n
    rw [State.getV_setFlag_of_ne _ f hx, State.getV_setV_same, hb]
  · exact (State.getV_setFlag_vf _ f).trans (if_congr hf rfl rfl)
  case frame =>
    have hregs : vf ∈ [x, vf] := List.mem_cons_of_mem _ List.mem_cons_self
    exact (((Frame.refl _ s).setV List.mem_cons_self b).setFlag hregs f).withPc _

/-! ## The results and the flags in numbers (R147 to R151) -/

theorem carryFlag_iff {a b : Byte} : carryFlag a b = true ↔ 255 < a.toNat + b.toNat := decide_eq_true_iff

theorem borrowFlag_iff {a b : Byte} : borrowFlag Config.quirkFlagNotBorrow a b = true ↔ b.toNat ≤ a.toNat :=
  decide_eq_true_iff

/-- The difference modulo 256, with 256 added before the subtraction on natural numbers. -/
theorem toNat_byte_sub (a b : Byte) : (a - b).toNat = (a.toNat + 256 - b.toNat) % 256 := by
  have hb := b.isLt
  rw [BitVec.toNat_sub]
  congr 1
  omega

theorem shrFlag_iff {b : Byte} : shrFlag b = true ↔ b.toNat % 2 = 1 := by
  rw [shrFlag, BitVec.getLsbD, Nat.testBit_zero, decide_eq_true_iff]

theorem toNat_shiftRight_one (b : Byte) : (b >>> 1).toNat = b.toNat / 2 := by
  rw [BitVec.toNat_ushiftRight, Nat.shiftRight_one]

/-- The bit `SHL` shifts out is the most significant one. -/
theorem shlFlag_iff {b : Byte} : shlFlag b = true ↔ 128 ≤ b.toNat := by
  have hmsb : shlFlag b = b.msb := by rw [BitVec.msb_eq_getLsbD_last, shlFlag]
  rw [hmsb, BitVec.msb_eq_decide, decide_eq_true_iff]

theorem toNat_shiftLeft_one (b : Byte) : (b <<< 1).toNat = b.toNat * 2 % 256 := by
  rw [BitVec.toNat_shiftLeft, Nat.shiftLeft_eq, Nat.pow_one]

/-! ## The flag writers -/

/-- Settles O32: the sum, then the carry. -/
theorem addRegistersWritesSumThenCarry : Obligations.AddRegistersWritesSumThenCarry := fun _ _ _ =>
  ⟨exec_writes_register_then_flag rfl (BitVec.toNat_add _ _) carryFlag_iff, exec_atLastWord rfl rfl⟩

/-- Settles O33: the difference, then not-borrow, with the operands either way round. -/
theorem subtractionsWriteDifferenceThenNotBorrow : Obligations.SubtractionsWriteDifferenceThenNotBorrow := fun _ _ _ =>
  ⟨fun h => ⟨exec_writes_register_then_flag rfl (toNat_byte_sub _ _) borrowFlag_iff h,
      exec_writes_register_then_flag rfl (toNat_byte_sub _ _) borrowFlag_iff h⟩,
    fun h => ⟨exec_atLastWord rfl rfl h, exec_atLastWord rfl rfl h⟩⟩

/-- Settles O34: `V[Y]` shifted, then the bit shifted out. -/
theorem shiftsWriteResultThenBitShiftedOut : Obligations.ShiftsWriteResultThenBitShiftedOut := fun _ _ _ =>
  ⟨fun h => ⟨exec_writes_register_then_flag rfl (toNat_shiftRight_one _) shrFlag_iff h,
      exec_writes_register_then_flag rfl (toNat_shiftLeft_one _) shlFlag_iff h⟩,
    fun h => ⟨exec_atLastWord rfl rfl h, exec_atLastWord rfl rfl h⟩⟩

/-! ## The instructions that write no flag -/

/-- Settles O28: one register written with the immediate. -/
theorem loadImmediateWritesTheRegister : Obligations.LoadImmediateWritesTheRegister := fun _ _ _ =>
  ⟨exec_writes_register rfl, exec_atLastWord rfl rfl⟩

/-- Settles O29: the sum of bytes is the sum modulo 256. -/
theorem addImmediateWrapsWithoutFlag : Obligations.AddImmediateWrapsWithoutFlag := by
  refine fun x nn s => ⟨fun h => ?_, exec_atLastWord rfl rfl⟩
  obtain ⟨t, ht, hv, hpc, hframe⟩ := exec_writes_register (i := .addImm x nn) rfl h
  exact ⟨t, ht, hv ▸ BitVec.toNat_add _ _, hpc, hframe⟩

/-- Settles O30: one register written with the other's value, which is read first. -/
theorem copyRegisterWritesTheDestination : Obligations.CopyRegisterWritesTheDestination := fun _ _ _ =>
  ⟨exec_writes_register rfl, exec_atLastWord rfl rfl⟩

/-- Settles O31: one register written with the combination of the two values, three times. -/
theorem bitwiseOperationsCombineIntoTheDestination : Obligations.BitwiseOperationsCombineIntoTheDestination :=
  fun _ _ _ =>
    ⟨fun h => ⟨exec_writes_register rfl h, exec_writes_register rfl h, exec_writes_register rfl h⟩,
      fun h => ⟨exec_atLastWord rfl rfl h, exec_atLastWord rfl rfl h, exec_atLastWord rfl rfl h⟩⟩

/-- A masked byte has no bit outside its mask (R152). -/
theorem and_mask_and_not (r mask : Byte) : r &&& mask &&& ~~~mask = 0 := by
  rw [BitVec.and_assoc, BitVec.and_not_self]
  exact BitVec.and_zero

/-- Settles O35: the byte is the free draw, and the counter of draws moves beside the register. -/
theorem randomByteIsMasked : Obligations.RandomByteIsMasked := by
  refine fun x nn s => ⟨fun h => ?_, exec_atLastWord rfl rfl⟩
  have hv : (effect (.rnd x nn) s).getV x = Config.drawByte s.draws &&& nn := State.getV_setV_same _ _ _
  refine ⟨{ effect (.rnd x nn) s with pc := s.pc + 2 }, Config.drawByte s.draws, exec_of_canAdvance rfl rfl h, hv,
    ?mask, ?zero, rfl, ?frame⟩
  case mask => exact hv ▸ and_mask_and_not _ nn
  case zero =>
    rintro rfl
    exact hv.trans BitVec.and_zero
  case frame => exact (((Frame.refl _ s).withDraws rfl _).setV List.mem_cons_self _).withPc _

end Sys2Proof.Machine
end

section
/-! Control flow (42_control_flow.md): each instruction tests its own fatal error and ends in `SetPc` on its target, or
in a skip. -/

namespace Sys2Proof.Machine

/-! ## Targets NNN (R171, R172) -/

section
variable {nnn : Imm12} (i : Instr) (u : State)

theorem setPc_nnn_of_even (h : nnn.toNat % 2 = 0) :
    setPc i nnn.toNat u = .next { u with pc := BitVec.ofNat 16 nnn.toNat } := by
  have hlt := nnn.isLt
  exact setPc_eq_next.mpr ⟨by simp only [Config.memSize]; omega, h, rfl⟩

/-- 0xFFF is the one immediate beyond the last word. -/
theorem setPc_nnn_of_eq_max (h : nnn = 0xFFF) :
    setPc i nnn.toNat u = .fault (.pcOutOfBounds (encode i) u.pc) :=
  setPc_eq_fault.mpr (.inl ⟨by rw [h]; decide, rfl⟩)

theorem setPc_nnn_of_odd (hodd : nnn.toNat % 2 = 1) (hne : nnn ≠ 0xFFF) :
    setPc i nnn.toNat u = .fault (.pcMisaligned (encode i) u.pc) := by
  have hlt := nnn.isLt
  have hmax : nnn.toNat ≠ 0xFFF := fun h => hne (BitVec.eq_of_toNat_eq h)
  exact setPc_eq_fault.mpr (.inr ⟨by simp only [Config.memSize]; omega, hodd, rfl⟩)

end

/-! ## The stack (R172, R173) -/

/-- The stack and its pointer written together. -/
theorem Frame.withStack {w : Touches} {s t : State} (h : Frame w s t) (hw : w.stack = true)
    (stack : Vector Word Config.stackDepth) (sp : Fin (Config.stackDepth + 1)) :
    Frame w s { t with stack := stack, sp := sp } := by
  obtain ⟨hregs, hindex, -, hrest⟩ := h
  exact ⟨hregs, hindex, fun hf => by simp [hw] at hf, hrest⟩

/-- With a free slot, `CALL` ends in `SetPc` on its push. -/
theorem exec_call_of_lt (nnn : Imm12) {s : State} (h : s.sp.val < Config.stackDepth) :
    exec (.call nnn) s = setPc (.call nnn) nnn.toNat (effect (.call nnn) s) := by
  rw [effect_call_of_lt nnn h]
  exact dif_neg h.ne

/-- With `k + 1` addresses saved, `RET` ends in `SetPc` on the one in slot `k`. -/
theorem exec_ret_of_eq_succ {s : State} {k : Fin Config.stackDepth} (h : s.sp.val = k.val + 1) :
    exec .ret s = setPc .ret s.stack[k].toNat (effect .ret s) := by
  have hslot : s.sp.val - 1 = k.val := by omega
  have hne : ¬ s.sp.val = 0 := by omega
  refine (dif_neg hne).trans ?_
  simp only [hslot, effect, Fin.getElem_fin]

/-- Settles O37: the push is `effect`, and `SetPc` tests the target after it. -/
theorem callPushesTheReturnAddress : Obligations.CallPushesTheReturnAddress := by
  refine fun nnn s => ⟨fun hsp heven => ?_, fun hfull => dif_pos hfull, fun hsp hmax => ?_, fun hsp hodd hne => ?_⟩
  · refine ⟨_, (exec_call_of_lt nnn hsp).trans (setPc_nnn_of_even _ _ heven), rfl, Nat.min_eq_left hsp, ?push, ?rest,
      ((Frame.refl _ s).withStack rfl _ _).withPc _⟩
    case push => exact fun k hk => (stack_effect_call nnn s k).trans (if_pos hk)
    case rest => exact fun k hk => (stack_effect_call nnn s k).trans (if_neg hk)
  · exact (exec_call_of_lt nnn hsp).trans (setPc_nnn_of_eq_max _ _ hmax)
  · exact (exec_call_of_lt nnn hsp).trans (setPc_nnn_of_odd _ _ hodd hne)

/-- Settles O38: `effect` uncounts the slot, and `SetPc` tests the address saved in it. -/
theorem returnPopsTheReturnAddress : Obligations.ReturnPopsTheReturnAddress := by
  refine fun s => ⟨fun hempty => dif_pos hempty, fun k hk heven hle => ?_, fun k hk habove => ?_,
    fun k hk hle hodd => ?_⟩
  · have hpc : BitVec.ofNat 16 s.stack[k].toNat = s.stack[k] := by rw [BitVec.ofNat_toNat, BitVec.setWidth_eq]
    have hsp : s.sp.val - 1 = k.val := by omega
    exact ⟨_, (exec_ret_of_eq_succ hk).trans (setPc_eq_next.mpr ⟨hle, heven, rfl⟩), hpc, hsp, rfl,
      ((Frame.refl _ s).withStack rfl _ _).withPc _⟩
  · exact (exec_ret_of_eq_succ hk).trans (setPc_eq_fault.mpr (.inl ⟨habove, rfl⟩))
  · exact (exec_ret_of_eq_succ hk).trans (setPc_eq_fault.mpr (.inr ⟨hle, hodd, rfl⟩))

/-! ## The jumps (R171, R174) -/

/-- Settles O36: `SetPc` on the immediate. -/
theorem jumpGoesToItsTarget : Obligations.JumpGoesToItsTarget := fun nnn s =>
  ⟨decodeOfEncodeIsTheInstruction (.jp nnn) rfl, setPc_nnn_of_even _ s, setPc_nnn_of_eq_max _ s,
    setPc_nnn_of_odd _ s⟩

/-- Settles O39: `SetPc` on the natural sum. -/
theorem jumpWithOffsetAddsRegisterZero : Obligations.JumpWithOffsetAddsRegisterZero := fun nnn _ =>
  ⟨decodeOfEncodeIsTheInstruction (.jpV0 nnn) rfl, fun hle heven => setPc_eq_next.mpr ⟨hle, heven, rfl⟩,
    fun habove => setPc_eq_fault.mpr (.inl ⟨habove, rfl⟩), fun hle hodd => setPc_eq_fault.mpr (.inr ⟨hle, hodd, rfl⟩)⟩

/-! ## The skips (R175 to R180) -/

/-- An instruction that ends in a skip, whose condition is read as the proposition it decides, skips by it (R128). -/
theorem skipsWhen_of_exec_eq_skipIf {i : Instr} {pre cond : State → Prop} {b : State → Bool}
    (hi : ∀ s, pre s → exec i s = skipIf i (b s) s) (hb : ∀ s, pre s → (b s = true ↔ cond s)) :
    SkipsWhen i pre cond := by
  intro s hs
  have htrue (hc : cond s) : exec i s = skipIf i true s := by rw [hi s hs, (hb s hs).mpr hc]
  have hfalse (hc : ¬ cond s) : exec i s = advance i s := by
    rw [hi s hs, Bool.eq_false_iff.mpr (mt (hb s hs).mp hc), skipIf_false]
  exact ⟨fun hc hskip => (htrue hc).trans (skipIf_true i hskip),
    fun hc hadv => (hfalse hc).trans (advance_of_canAdvance i hadv),
    fun hc hend => (htrue hc).trans (setPc_eq_fault.mpr (.inl ⟨hend, rfl⟩)),
    fun hc hend => (hfalse hc).trans (setPc_eq_fault.mpr (.inl ⟨hend, rfl⟩))⟩

/-- Settles O40: the condition compares a register with the immediate. -/
theorem immediateSkipsFollowTheComparison : Obligations.ImmediateSkipsFollowTheComparison := fun _ _ =>
  ⟨skipsWhen_of_exec_eq_skipIf (fun _ _ => rfl) fun _ _ => beq_iff_eq,
    skipsWhen_of_exec_eq_skipIf (fun _ _ => rfl) fun _ _ => bne_iff_ne⟩

/-- Settles O41: the condition compares two registers. -/
theorem registerSkipsFollowTheComparison : Obligations.RegisterSkipsFollowTheComparison := fun _ _ =>
  ⟨skipsWhen_of_exec_eq_skipIf (fun _ _ => rfl) fun _ _ => beq_iff_eq,
    skipsWhen_of_exec_eq_skipIf (fun _ _ => rfl) fun _ _ => bne_iff_ne⟩

/-- Settles O42: a value that names a key passes the test before the skip, and any other ends in its fault. -/
theorem keySkipsFollowTheKeyFlag : Obligations.KeySkipsFollowTheKeyFlag := fun _ =>
  ⟨skipsWhen_of_exec_eq_skipIf (fun _ hk => if_neg hk.not_gt) fun _ _ => State.keyHeld_iff,
    skipsWhen_of_exec_eq_skipIf (fun _ hk => if_neg hk.not_gt) fun _ hk => State.not_keyHeld_iff hk.not_gt,
    fun _ hk => ⟨if_pos hk, if_pos hk⟩⟩

end Sys2Proof.Machine
end

section
/-! Memory and index (43_memory_index.md): three instructions hand `SetPc(pc + 2)` a new index register, and three first
test the range of bytes they store or load. -/

namespace Sys2Proof.Machine

/-! ## Behind the range test (20_memory.md R70) -/

section
variable {i : Instr} {l : Nat} {s u : State} (hi : exec i s = guardRange i l s (advance i u))
include hi

/-- In range, an instruction behind the range test is one that ends in `advance`. -/
theorem exec_eq_advance_of_inRange (hle : s.index.toNat + l ≤ Config.memSize) : exec i s = advance i u :=
  hi.trans (guardRange_of_ok _ (State.rangeOk_iff.mpr (.inr hle)))

theorem exec_outOfRange (hl : l ≠ 0) (hlt : Config.memSize < s.index.toNat + l) :
    exec i s = .fault (.memOutOfRange (encode i) s.pc) := by
  have hbad : s.rangeOk l = false := by
    rw [Bool.eq_false_iff, Ne, State.rangeOk_iff]
    omega
  exact hi.trans (guardRange_of_not_ok _ hbad)

end

/-! ## Frames of stores and loads -/

section
variable {w : Touches} {s t : State} (h : Frame w s t)
include h

/-- Bytes written inside the store range of the frame. -/
theorem Frame.withBytes {a : Nat} {bs : List Byte} (hlow : w.store.1 ≤ a)
    (hhigh : a + bs.length ≤ w.store.1 + w.store.2) : Frame w s { t with mem := t.mem.writeBytes a bs } := by
  obtain ⟨hregs, hindex, hstack, hdisp, hdt, hst, hwait, hdraws, hkeys, hmem⟩ := h
  refine ⟨hregs, hindex, hstack, hdisp, hdt, hst, hwait, hdraws, hkeys, fun a' ha' => ?_⟩
  have houtside : a' < a ∨ a + bs.length ≤ a' := by omega
  exact (Memory.read_writeBytes_of_outside bs t.mem houtside).trans (hmem a' ha')

/-- A register file that differs in destination registers alone. -/
theorem Frame.withRegs {v : Vector Byte 16} (hv : ∀ r : RegIdx, r ∉ w.regs → v[r.toNat] = t.getV r) :
    Frame w s { t with v := v } := by
  obtain ⟨hregs, hrest⟩ := h
  exact ⟨fun r hr => (hv r hr).trans (hregs r hr), hrest⟩

end

/-! ## LD B (R204) -/

/-- A digit read as a byte keeps its value. -/
theorem toNat_ofNat_of_le_nine {d : Nat} (h : d ≤ 9) : (BitVec.ofNat 8 d).toNat = d :=
  Nat.mod_eq_of_lt (by omega)

theorem toNat_bcdDigits (b : Byte) :
    (bcdDigits b).map BitVec.toNat = [b.toNat / 100, b.toNat / 10 % 10, b.toNat % 10] := by
  have hb := b.isLt
  simp only [bcdDigits, List.map_cons, List.map_nil]
  rw [toNat_ofNat_of_le_nine (by omega), toNat_ofNat_of_le_nine (by omega), toNat_ofNat_of_le_nine (by omega)]

/-- After `LD B`, byte `I + k` reads as digit `k`. -/
theorem toNat_read_effect_ldB (x : RegIdx) {s : State} (hwf : s.mem.wf) (hle : s.index.toNat + 3 ≤ Config.memSize)
    {k : Nat} (hk : k < 3) :
    ((effect (.ldB x) s).mem.read (s.index.toNat + k)).toNat =
      [(s.getV x).toNat / 100, (s.getV x).toNat / 10 % 10, (s.getV x).toNat % 10][k] := by
  calc ((effect (.ldB x) s).mem.read (s.index.toNat + k)).toNat
      = (bcdDigits (s.getV x))[k].toNat :=
        congrArg BitVec.toNat (Memory.read_writeBytes_at (bcdDigits (s.getV x)) hwf hk hle)
    _ = ((bcdDigits (s.getV x)).map BitVec.toNat)[k] := (List.getElem_map _).symm
    _ = _ := by simp only [toNat_bcdDigits]

/-- Settles O46: behind the range test, the three digits of `effect`. -/
theorem decimalDigitsAreStored : Obligations.DecimalDigitsAreStored := by
  intro x s
  have hexec : exec (.ldB x) s = guardRange (.ldB x) 3 s (advance (.ldB x) (effect (.ldB x) s)) := rfl
  refine ⟨decodeOfEncodeIsTheInstruction (.ldB x) rfl, fun hwf hadv hle => ?_, exec_outOfRange hexec (by decide),
    fun hle => exec_atLastWord (exec_eq_advance_of_inRange hexec hle) rfl⟩
  exact ⟨_, exec_of_canAdvance (exec_eq_advance_of_inRange hexec hle) rfl hadv,
    toNat_read_effect_ldB x hwf hle (k := 0) (by decide), toNat_read_effect_ldB x hwf hle (k := 1) (by decide),
    toNat_read_effect_ldB x hwf hle (k := 2) (by decide), rfl,
    ((Frame.refl _ s).withBytes le_rfl le_rfl).withPc _⟩

/-! ## The bulk store (R205) -/

/-- Settles O47: behind the range test, the registers `V[0]` to `V[X]` written at `I`. -/
theorem bulkStoreWritesTheRegisters : Obligations.BulkStoreWritesTheRegisters := by
  intro x s
  have hexec : exec (.ldMemVx x) s =
      guardRange (.ldMemVx x) (x.toNat + 1) s (advance (.ldMemVx x) (effect (.ldMemVx x) s)) := rfl
  refine ⟨fun hwf hadv hle => ?_, exec_outOfRange hexec (Nat.succ_ne_zero _),
    fun hle => exec_atLastWord (exec_eq_advance_of_inRange hexec hle) rfl⟩
  have hnext := exec_of_canAdvance (exec_eq_advance_of_inRange hexec hle) rfl hadv
  refine ⟨_, hnext, fun k hk => ?read, rfl, ?frame⟩
  case read => rw [read_of_bulkStore hwf hnext hk, BitVec.ofNat_toNat, BitVec.setWidth_eq]
  case frame =>
    have hlen : s.index.toNat + (s.regRange x).length ≤ s.index.toNat + (x.toNat + 1) :=
      Nat.add_le_add_left (s.length_regRange x).le _
    exact ((Frame.refl _ s).withBytes le_rfl hlen).withPc _

/-! ## The bulk load (R206) -/

/-- What the bulk load leaves in a register. -/
theorem getV_effect_bulkLoad (x k : RegIdx) (s : State) :
    (effect (.ldVxMem x) s).getV k =
      if k.toNat ≤ x.toNat then s.mem.read (s.index.toNat + k.toNat) else s.getV k :=
  (loadRange_getElem _ _ _ _ k.toNat k.isLt).trans (if_congr Nat.lt_succ_iff rfl rfl)

/-- The destinations of the bulk load are `V[0]` to `V[X]`. -/
theorem mem_bulkLoad_regs {x k : RegIdx} (hk : k.toNat ≤ x.toNat) :
    k ∈ (List.range (x.toNat + 1)).map (BitVec.ofNat 4) :=
  List.mem_map.mpr
    ⟨k.toNat, List.mem_range.mpr (Nat.lt_succ_of_le hk), by rw [BitVec.ofNat_toNat, BitVec.setWidth_eq]⟩

/-- Settles O48: behind the range test, the registers `V[0]` to `V[X]` of `effect`. -/
theorem bulkLoadReadsTheRegisters : Obligations.BulkLoadReadsTheRegisters := by
  intro x s
  have hexec : exec (.ldVxMem x) s =
      guardRange (.ldVxMem x) (x.toNat + 1) s (advance (.ldVxMem x) (effect (.ldVxMem x) s)) := rfl
  refine ⟨decodeOfEncodeIsTheInstruction (.ldVxMem x) rfl, fun hadv hle => ?_,
    exec_outOfRange hexec (Nat.succ_ne_zero _),
    fun hle => exec_atLastWord (exec_eq_advance_of_inRange hexec hle) rfl⟩
  refine ⟨_, exec_of_canAdvance (exec_eq_advance_of_inRange hexec hle) rfl hadv, fun k hk => ?loaded, rfl, ?frame⟩
  case loaded => exact (getV_effect_bulkLoad x k s).trans (if_pos hk)
  case frame =>
    refine ((Frame.refl _ s).withRegs fun k hk => ?_).withPc _
    exact (getV_effect_bulkLoad x k s).trans (if_neg (mt mem_bulkLoad_regs hk))

/-! ## The index register (R201 to R203) -/

/-- The index register written, nothing else. -/
theorem exec_writes_index {i : Instr} {s : State} {a b : Word} (hi : exec i s = advance i { s with index := a })
    (hab : a = b) (h : s.CanAdvance) : exec i s = .next { s with index := b, pc := s.pc + 2 } :=
  hab ▸ exec_of_canAdvance hi rfl h

/-- The sum of words is the sum modulo 65536. -/
theorem index_add_byte (a : Word) (b : Byte) :
    a + b.zeroExtend 16 = BitVec.ofNat 16 ((a.toNat + b.toNat) % 65536) := by
  have hb : (b.zeroExtend 16).toNat = b.toNat := BitVec.toNat_setWidth_of_le (by decide)
  apply BitVec.eq_of_toNat_eq
  rw [BitVec.toNat_add, hb, BitVec.toNat_ofNat, Nat.mod_mod]

theorem fontAddress_eq (b : Byte) : fontAddress b = BitVec.ofNat 16 (Config.fontBase + 5 * (b.toNat % 16)) := by
  have hnibble : (b.extractLsb' 0 4).toNat = b.toNat % 16 := BitVec.extractLsb'_toNat 0 4 b
  rw [fontAddress, hnibble, Config.fontHeight]

/-- Settles O43: the immediate, zero-extended. -/
theorem loadIndexWritesTheIndex : Obligations.LoadIndexWritesTheIndex := fun nnn _ =>
  ⟨decodeOfEncodeIsTheInstruction (.ldI nnn) rfl, exec_writes_index rfl (BitVec.ofNat_toNat _ _).symm,
    exec_atLastWord rfl rfl⟩

/-- Settles O44: the wrapping sum. -/
theorem addIndexWrapsAtSixteenBits : Obligations.AddIndexWrapsAtSixteenBits := fun x _ =>
  ⟨decodeOfEncodeIsTheInstruction (.addI x) rfl, exec_writes_index rfl (index_add_byte _ _),
    exec_atLastWord rfl rfl⟩

/-- Settles O45: the address of the glyph. -/
theorem loadFontSelectsTheGlyph : Obligations.LoadFontSelectsTheGlyph := fun _ _ =>
  ⟨exec_writes_index rfl (fontAddress_eq _), exec_atLastWord rfl rfl⟩

end Sys2Proof.Machine
end

section
/-! Display (44_display.md): `CLS` hands `SetPc(pc + 2)` a blank display, and `DRW`, behind the range test, the drawn
display and then the collision flag. -/

namespace Sys2Proof.Machine

/-- The display written. -/
theorem Frame.withDisp {w : Touches} {s t : State} (h : Frame w s t) (hw : w.disp = true) (disp : Display) :
    Frame w s { t with disp := disp } := by
  obtain ⟨hregs, hindex, hstack, -, hrest⟩ := h
  exact ⟨hregs, hindex, hstack, fun hf => by simp [hw] at hf, hrest⟩

/-! ## The drawn sprite in terms of its bits (R222 to R225) -/

theorem State.drawSprite_pixel (s : State) (x y : RegIdx) (n : Nat) {px py : Nat} (hpx : px < 64) (hpy : py < 32) :
    (s.drawSprite x y n).1.pixel px py = Bool.xor (s.disp.pixel px py) (s.spriteBit x y n px py) :=
  blitRows_pixel s.readAt _ _ _ hpx hpy n

theorem State.drawSprite_flag (s : State) (x y : RegIdx) (n : Nat) :
    (s.drawSprite x y n).2 = true ↔
      ∃ px < 64, ∃ py < 32, s.disp.pixel px py = true ∧ s.spriteBit x y n px py = true :=
  (blitRows_flag s.readAt _ _ _ n).trans (or_iff_right Bool.false_ne_true)

/-! ## The instructions -/

/-- Past the range test, also with no rows and `I` anywhere (R227), `DRW` ends in `advance` on its effect. -/
theorem exec_drw_of_inRange (x y : RegIdx) {n : Nibble} {s : State}
    (h : n.toNat = 0 ∨ s.index.toNat + n.toNat ≤ Config.memSize) :
    exec (.drw x y n) s = advance (.drw x y n) (effect (.drw x y n) s) :=
  guardRange_of_ok _ (State.rangeOk_iff.mpr h)

/-- The flag is written last, so it is what `VF` holds, also where `VF` was a coordinate (R222). -/
theorem getV_vf_effect_drw (x y : RegIdx) (n : Nibble) (s : State) :
    (effect (.drw x y n) s).getV vf = if (s.drawSprite x y n.toNat).2 then 1 else 0 :=
  State.getV_setFlag_vf _ _

/-- Settles O50: behind the range test, the drawn display and the flag of `effect`. -/
theorem drawXorsTheSpriteAndReportsCollision : Obligations.DrawXorsTheSpriteAndReportsCollision := by
  intro x y n s hadv hrange
  have hvf := getV_vf_effect_drw x y n s
  refine ⟨_, exec_of_canAdvance (exec_drw_of_inRange x y hrange) rfl hadv, ?pixels, ?hit, ?miss, rfl, ?frame⟩
  case pixels => exact fun px hpx py hpy => s.drawSprite_pixel x y n.toNat hpx hpy
  case hit => exact fun h => hvf.trans (if_pos ((s.drawSprite_flag x y n.toNat).mpr h))
  case miss =>
    refine fun h => hvf.trans (if_neg fun hflag => ?_)
    obtain ⟨px, hpx, py, hpy, hset, hbit⟩ := (s.drawSprite_flag x y n.toNat).mp hflag
    exact Bool.false_ne_true ((h px hpx py hpy hset).symm.trans hbit)
  case frame => exact (((Frame.refl _ s).withDisp rfl _).setFlag List.mem_cons_self _).withPc _

/-- Settles O49: the blank display, nothing else. -/
theorem clearScreenClearsEveryPixel : Obligations.ClearScreenClearsEveryPixel := fun s =>
  ⟨decodeOfEncodeIsTheInstruction .cls rfl,
    fun hadv => ⟨_, exec_of_canAdvance rfl rfl hadv, fun x _ y _ => blankDisplay_pixel x y, rfl,
      ((Frame.refl _ s).withDisp rfl _).withPc _⟩,
    exec_atLastWord rfl rfl⟩

/-- Settles O51: the range test comes first, whatever the pc and the clipping. -/
theorem drawTestsItsWholeRange : Obligations.DrawTestsItsWholeRange := fun x y _ _ =>
  ⟨fun hrows => exec_outOfRange rfl hrows.ne', fun hrange => exec_atLastWord (exec_drw_of_inRange x y hrange) rfl⟩

end Sys2Proof.Machine
end

section
/-! Timers and input (45_timer_input.md): the four instructions that touch a timer or set the wait latch, what an
executing step leaves in the timers and the latch, and what `setKeys` leaves in the key flags. -/

namespace Sys2Proof.Machine

/-! ## The instructions (R241 to R244) -/

/-- Settles O52: one register written with the delay timer, or one timer written with a register. -/
theorem timerInstructionsReadAndWriteTheTimers : Obligations.TimerInstructionsReadAndWriteTheTimers := fun x s =>
  ⟨fun h => ⟨exec_writes_register rfl h, exec_of_canAdvance (u := effect (.ldDtVx x) s) rfl rfl h,
      exec_of_canAdvance (u := effect (.ldStVx x) s) rfl rfl h⟩,
    fun h => ⟨exec_atLastWord rfl rfl h, exec_atLastWord rfl rfl h, exec_atLastWord rfl rfl h⟩⟩

/-- Settles O53: the latch written, nothing else. -/
theorem waitForKeySetsTheLatch : Obligations.WaitForKeySetsTheLatch := fun x s =>
  ⟨decodeOfEncodeIsTheInstruction (.ldVxK x) rfl, exec_of_canAdvance (u := effect (.ldVxK x) s) rfl rfl,
    exec_atLastWord rfl rfl⟩

/-! ## The timers and the latch in the effect -/

/-- Only `LD DT, Vx` writes the delay timer (10_state.md R30). -/
theorem dt_effect_of_ne {i : Instr} (s : State) (h : ∀ x, i ≠ .ldDtVx x) : (effect i s).dt = s.dt := by
  cases i with
  | ldDtVx x => exact absurd rfl (h x)
  | _ => rfl

/-- Only `LD ST, Vx` writes the sound timer (10_state.md R30). -/
theorem st_effect_of_ne {i : Instr} (s : State) (h : ∀ x, i ≠ .ldStVx x) : (effect i s).st = s.st := by
  cases i with
  | ldStVx x => exact absurd rfl (h x)
  | _ => rfl

/-- Only `LD Vx, K` sets the wait latch (10_state.md R31). -/
theorem keyWait_effect_of_ne {i : Instr} (s : State) (h : ∀ x, i ≠ .ldVxK x) :
    (effect i s).keyWait = s.keyWait := by
  cases i with
  | ldVxK x => exact absurd rfl (h x)
  | _ => rfl

/-! ## How a step ends (40_step_and_dispatch.md R121, R122, R126) -/

theorem stateAfterStep_of_waiting {s : State} {r : RegIdx} (h : s.keyWait = some r) : stateAfterStep s = s := by
  rw [stateAfterStep, step_of_waiting h]

theorem stateAfterStep_of_fault {s : State} {f : Fault} (h : step s = .fault f) : stateAfterStep s = s := by
  rw [stateAfterStep, h]

/-- A step of a running machine that answers a next state is the decoded instruction's, past the timer decrement. -/
theorem exec_of_step_eq_next {s t : State} {i : Instr} (hk : s.keyWait = none) (hd : decodeWord s.fetchWord = .ok i)
    (h : step s = .next t) : exec i s.tickTimers = .next t := by
  obtain ⟨hwait, -⟩ | ⟨-, -, j, hj, hexec⟩ := step_eq_next.mp h
  · exact absurd hk hwait
  · obtain rfl : j = i := Except.ok.inj (hj.symm.trans hd)
    exact hexec

/-- Settles O12: a blocked and a faulting step leave the whole state, and an executing one commits its instruction's
`effect` on the decremented timers. -/
theorem timersFollowTheTimerLaw : Obligations.TimersFollowTheTimerLaw := by
  refine fun s => ⟨fun hwait => ?blocked, fun f hf => ?fault, fun i t hk hd h => ?executing⟩
  case blocked =>
    obtain ⟨r, hr⟩ := Option.ne_none_iff_exists'.mp hwait
    rw [stateAfterStep_of_waiting hr]
    exact ⟨rfl, rfl⟩
  case fault =>
    rw [stateAfterStep_of_fault hf]
    exact ⟨rfl, rfl⟩
  case executing =>
    obtain ⟨-, pc, rfl⟩ := exec_eq_next (exec_of_step_eq_next hk hd h)
    refine ⟨?_, fun hne => ?_, ?_, fun hne => ?_⟩
    · rintro x rfl
      rfl
    · exact (congrArg BitVec.toNat (dt_effect_of_ne s.tickTimers hne)).trans (toNat_decrement s.dt)
    · rintro x rfl
      rfl
    · exact (congrArg BitVec.toNat (st_effect_of_ne s.tickTimers hne)).trans (toNat_decrement s.st)

/-! ## The input latch (R240) -/

/-- An executing `LD Vx, K` decrements the timers, sets the latch and moves the pc past itself (R242). -/
theorem eq_of_exec_ldVxK_tickTimers {x : RegIdx} {s t : State} (h : exec (.ldVxK x) s.tickTimers = .next t) :
    t = { s with
      dt := BitVec.ofNat 8 (s.dt.toNat - 1), st := BitVec.ofNat 8 (s.st.toNat - 1)
      keyWait := some x, pc := s.pc + 2 } := by
  obtain ⟨-, -, rfl⟩ := setPc_eq_next.mp h
  rw [← decrement_eq_ofNat, ← decrement_eq_ofNat]
  rfl

/-- The resolution of a wait writes no key flag (46_host_interface.md R264). -/
theorem State.keys_resolveWait (s : State) (tr : Vector KeyTransition 16) : (s.resolveWait tr).keys = s.keys := by
  unfold State.resolveWait
  split
  · exact State.setV_keys _ _ _
  · rfl
  · rfl

/-- With or without a wait, each key flag follows its own transition (46_host_interface.md R263). -/
theorem State.getElem_keys_setKeys (s : State) (tr : Vector KeyTransition 16) (j : Fin 16) :
    (s.setKeys tr).keys[j] = keyAfter tr[j] s.keys[j] := by
  have hkeys : (s.setKeys tr).keys = (s.updateKeys tr).keys := State.keys_resolveWait _ tr
  rw [hkeys]
  exact Vector.getElem_ofFn j.isLt

/-- Without a wait, `setKeys` changes the key flags alone. -/
theorem State.setKeys_eq_withKeys_of_running {s : State} (tr : Vector KeyTransition 16) (h : s.keyWait = none) :
    s.setKeys tr = { s with keys := (s.setKeys tr).keys } := by
  rw [State.setKeys_of_running tr h]
  rfl

/-- Without a press, `setKeys` changes the key flags alone. -/
theorem State.setKeys_eq_withKeys_of_noPress {s : State} {tr : Vector KeyTransition 16}
    (h : ∀ k : Fin 16, tr[k] ≠ .pressed) : s.setKeys tr = { s with keys := (s.setKeys tr).keys } := by
  rw [State.setKeys_of_noPress h]
  rfl

/-- The highest press ends a wait, with its index in the latched register. -/
theorem State.setKeys_eq_of_press {s : State} {r : RegIdx} {tr : Vector KeyTransition 16} {k : Fin 16}
    (h : s.keyWait = some r) (hk : tr[k] = .pressed) (hmax : ∀ j : Fin 16, k < j → tr[j] ≠ .pressed) :
    s.setKeys tr = { s with
      v := s.v.set r.toNat (BitVec.ofNat 8 k.val), keys := (s.setKeys tr).keys, keyWait := none } := by
  rw [State.setKeys_of_press h hk hmax]
  rfl

/-- Settles O54, row by row: steps by the latch of `effect`, `setKeys` by its three cases, `load` by what it writes. -/
theorem inputLatchFollowsItsTable : Obligations.InputLatchFollowsItsTable := by
  refine ⟨fun s t i hk hd h => ?executing, fun s f hf => ?fault, State.getElem_keys_setKeys,
    fun s tr => State.setKeys_eq_withKeys_of_running tr, fun s r => stateAfterStep_of_waiting,
    fun s r tr _ => State.setKeys_eq_withKeys_of_noPress, fun s r tr k => State.setKeys_eq_of_press,
    fun s => rfl, fun s t bytes h => ?load⟩
  case executing =>
    have hexec := exec_of_step_eq_next hk hd h
    refine ⟨?_, fun hne => ?_⟩
    · rintro x rfl
      exact eq_of_exec_ldVxK_tickTimers hexec
    · obtain ⟨-, pc, rfl⟩ := exec_eq_next hexec
      exact (keyWait_effect_of_ne s.tickTimers hne).trans hk
  case fault =>
    obtain ⟨hk, -⟩ := step_eq_fault.mp hf
    exact ⟨hk, stateAfterStep_of_fault hf⟩
  case load => rw [State.load_eq_next h]

end Sys2Proof.Machine
end

section
/-! The host's operations (46_host_interface.md): what `setKeys` writes into the flags and the latched register, where
`load` puts its image, and what the two observers report. -/

namespace Sys2Proof.Machine

/-! ## setKeys (R263, R264) -/

/-- Settles O55: each flag is its transition's `keyAfter`. -/
theorem setKeysAppliesEachTransition : Obligations.SetKeysAppliesEachTransition := by
  intro s tr k
  rw [State.getElem_keys_setKeys]
  refine ⟨fun h => ?_, fun h => ?_, fun h => ?_⟩ <;> rw [h, keyAfter]

section
variable {s : State} {r : RegIdx} {tr : Vector KeyTransition 16} {k : Fin 16} (h : s.keyWait = some r)
  (hk : tr[k] = .pressed) (hmax : ∀ j : Fin 16, k < j → tr[j] ≠ .pressed)
include h hk hmax

/-- The highest press leaves the register file of one register write. -/
theorem State.v_setKeys_of_press : (s.setKeys tr).v = (s.setV r (BitVec.ofNat 8 k.val)).v := by
  rw [State.setKeys_eq_of_press h hk hmax]
  rfl

/-- The latched register reads the index of the highest press, and the others as before. -/
theorem State.getV_setKeys_of_press (q : RegIdx) :
    (s.setKeys tr).getV q = if q = r then BitVec.ofNat 8 k.val else s.getV q := by
  rw [State.getV_congr (State.v_setKeys_of_press h hk hmax) q, State.getV_setV]

end

/-- Settles O56: a press ends the wait in one register write; without a wait or a press only the flags are written. -/
theorem setKeysEndsAWaitWithTheHighestKey : Obligations.SetKeysEndsAWaitWithTheHighestKey := by
  refine fun s tr => ⟨fun r k hwait hk hmax => ⟨?latched, fun q hq => ?other, ?rest⟩, fun h => ?unanswered⟩
  case latched => rw [State.getV_setKeys_of_press hwait hk hmax, if_pos rfl]
  case other => rw [State.getV_setKeys_of_press hwait hk hmax, if_neg hq]
  case rest =>
    rw [State.v_setKeys_of_press hwait hk hmax]
    exact State.setKeys_eq_of_press hwait hk hmax
  case unanswered =>
    obtain hrunning | hnoPress := h
    · exact State.setKeys_eq_withKeys_of_running tr hrunning
    · exact State.setKeys_eq_withKeys_of_noPress hnoPress

/-! ## load (R262) -/

/-- An image that fits between 0x200 and the end of memory is accepted. -/
theorem State.load_of_fits (s : State) {bytes : List Byte} (h : bytes.length ≤ 3584) :
    s.load bytes = .next { s with mem := s.mem.writeBytes Config.programOrigin bytes } :=
  if_pos h

/-- A longer image is refused. -/
theorem State.load_of_tooLong (s : State) {bytes : List Byte} (h : 3584 < bytes.length) :
    s.load bytes = .refused (.loadTooLong bytes.length) :=
  if_neg (Nat.not_le.mpr h)

/-- Settles O58: an accepted image is the bytes written from 0x200 on, inside memory and inside the frame. -/
theorem loadCopiesTheImage : Obligations.LoadCopiesTheImage := by
  refine fun s bytes => ⟨fun hwf hlen => ?accepted, s.load_of_tooLong⟩
  have hend : Config.programOrigin + bytes.length ≤ Config.memSize := Nat.add_le_add_left hlen 0x200
  exact ⟨_, s.load_of_fits hlen, fun j hj => Memory.read_writeBytes_at bytes hwf hj hend, rfl,
    (Frame.refl _ s).withBytes le_rfl le_rfl⟩

/-! ## The observers (R266, R267) -/

/-- The sequence of 2048 bits holds pixel `(x, y)` at its row-major index. -/
theorem State.getElem?_displayBits (s : State) (x : Fin 64) (y : Fin 32) :
    s.displayBits[y.val * 64 + x.val]? = some (s.disp.pixel x.val y.val) := by
  have hindex : y.val * 64 + x.val < 32 * 64 := by omega
  have hcolumn : (y.val * 64 + x.val) % 64 = x.val := by omega
  have hrow : (y.val * 64 + x.val) / 64 = y.val := by omega
  rw [State.displayBits, Config.displayH, Config.displayW, List.getElem?_map, List.getElem?_range hindex, Option.map_some,
    hcolumn, hrow]

theorem State.length_displayBits (s : State) : s.displayBits.length = 2048 := by
  rw [State.displayBits, List.length_map, List.length_range]
  rfl

/-- The sound is active exactly while the sound timer is not 0. -/
theorem State.soundActive_iff (s : State) : s.soundActive = true ↔ s.st ≠ 0 := bne_iff_ne

/-- Settles O59: the snapshot is the pixel by definition, and its row-major index splits into row and column. -/
theorem observersReportDisplayAndSound : Obligations.ObserversReportDisplayAndSound := fun s =>
  ⟨fun _ _ => rfl, s.getElem?_displayBits, s.length_displayBits, s.soundActive_iff, rfl, rfl⟩

end Sys2Proof.Machine
end

section
/-! The faults of an instruction (60_exceptions.md): it ends in a fault of its own, or in one of `SetPc`, and both report
the instruction's word and the pc. -/

namespace Sys2Proof.Machine

/-! ## The fault an instruction raises of its own, and the targets it hands to `SetPc` -/

/-- The rows of R281 that an instruction raises itself, reported with its word `op` and the pc. -/
inductive OwnFault (op pc : Word) : Instr → Fault → Prop
  | call (nnn : Imm12) : OwnFault op pc (.call nnn) (.stackOverflow op pc)
  | ret : OwnFault op pc .ret (.stackUnderflow op pc)
  | sys (nnn : Imm12) : OwnFault op pc (.sys nnn) (.unsupportedNative op pc)
  | drw (x y : RegIdx) (n : Nibble) : OwnFault op pc (.drw x y n) (.memOutOfRange op pc)
  | ldB (x : RegIdx) : OwnFault op pc (.ldB x) (.memOutOfRange op pc)
  | ldMemVx (x : RegIdx) : OwnFault op pc (.ldMemVx x) (.memOutOfRange op pc)
  | ldVxMem (x : RegIdx) : OwnFault op pc (.ldVxMem x) (.memOutOfRange op pc)
  | skp (x : RegIdx) : OwnFault op pc (.skp x) (.keyIndexOutOfRange op pc)
  | sknp (x : RegIdx) : OwnFault op pc (.sknp x) (.keyIndexOutOfRange op pc)

/-- What an instruction can hand to `SetPc` (the table of 40_step_and_dispatch.md R128); `SYS` never comes to it. -/
def SetPcTarget (i : Instr) (s : State) (n : Nat) : Prop :=
  match i with
  | .sys _ => False
  | .jp nnn | .call nnn => n = nnn.toNat
  | .jpV0 nnn => n = jumpOffsetTarget s nnn
  | .ret => ∃ k : Fin Config.stackDepth, s.sp.val = k.val + 1 ∧ n = s.stack[k].toNat
  | .seImm _ _ | .sneImm _ _ | .seReg _ _ | .sneReg _ _ | .skp _ | .sknp _ =>
    ∃ skips : Bool, n = s.pc.toNat + if skips then 4 else 2
  | _ => n = s.pc.toNat + 2

/-- Under the invariant only the jumps to an immediate and `CALL` can have an odd target: the pc is even, and so is the
address `RET` pops (R289). -/
theorem even_or_jump_of_setPcTarget {i : Instr} {s : State} {n : Nat} (hs : s.Inv) (h : SetPcTarget i s n) :
    n % 2 = 0 ∨ ∃ nnn, i = .jp nnn ∨ i = .call nnn ∨ i = .jpV0 nnn := by
  obtain ⟨⟨heven, -⟩, hstack, -⟩ := hs
  cases i with
  | sys nnn => exact h.elim
  | jp nnn => exact .inr ⟨nnn, .inl rfl⟩
  | call nnn => exact .inr ⟨nnn, .inr (.inl rfl)⟩
  | jpV0 nnn => exact .inr ⟨nnn, .inr (.inr rfl)⟩
  | ret =>
    obtain ⟨k, hk, rfl⟩ := h
    obtain ⟨hslot, -⟩ := hstack k (by omega)
    exact .inl hslot
  | seImm x nn | sneImm x nn | seReg x y | sneReg x y | skp x | sknp x =>
    obtain ⟨skips, rfl⟩ := h
    exact .inl (by split <;> omega)
  | _ =>
    obtain rfl : n = s.pc.toNat + 2 := h
    exact .inl (by omega)

/-! ## What a fault of `exec` is -/

/-- A fault of a meaning that begins with a test for a fatal error is the test's own or that of the rest. -/
theorem raise_or_eq_fault {c : Prop} [Decidable c] {cause : Word → Word → Fault} {i : Instr} {s : State} {f : Fault}
    {k : ¬ c → Host.Outcome State Fault Refusal} (h : (if hc : c then raise cause i s else k hc) = .fault f) :
    f = cause (encode i) s.pc ∨ ∃ hc : ¬ c, k hc = .fault f := by
  by_cases hc : c
  · rw [dif_pos hc] at h
    exact .inl (Host.Outcome.fault.inj h).symm
  · exact .inr ⟨hc, by rwa [dif_neg hc] at h⟩

/-- A fault behind the range test is the range fault or that of the rest (20_memory.md R70). -/
theorem guardRange_eq_fault {i : Instr} {l : Nat} {s : State} {k : Host.Outcome State Fault Refusal} {f : Fault}
    (h : guardRange i l s k = .fault f) : f = .memOutOfRange (encode i) s.pc ∨ k = .fault f := by
  cases hok : s.rangeOk l with
  | true => exact .inr (by rwa [guardRange_of_ok k hok] at h)
  | false =>
    rw [guardRange_of_not_ok k hok] at h
    exact .inl (Host.Outcome.fault.inj h).symm

/-- Every fault of an instruction is its own or that of `SetPc` on its `effect`. -/
theorem exec_eq_fault {i : Instr} {s : State} {f : Fault} (h : exec i s = .fault f) :
    OwnFault (encode i) s.pc i f ∨ ∃ n, SetPcTarget i s n ∧ setPc i n (effect i s) = .fault f := by
  cases i with
  | sys nnn =>
    obtain rfl := Host.Outcome.fault.inj h
    exact .inl (.sys nnn)
  | ret =>
    obtain rfl | ⟨hsp, hn⟩ := raise_or_eq_fault h
    · exact .inl .ret
    · exact .inr ⟨_, ⟨⟨s.sp.val - 1, by omega⟩, (Nat.sub_one_add_one hsp).symm, rfl⟩, hn⟩
  | call nnn =>
    obtain rfl | ⟨hsp, hn⟩ := raise_or_eq_fault h
    · exact .inl (.call nnn)
    · rw [effect_call_of_lt nnn (by omega)]
      exact .inr ⟨_, rfl, hn⟩
  | skp x | sknp x =>
    obtain rfl | ⟨_, hn⟩ := raise_or_eq_fault h
    · exact .inl (by constructor)
    · exact .inr ⟨_, ⟨_, rfl⟩, hn⟩
  | drw x y n | ldB x | ldMemVx x | ldVxMem x =>
    obtain rfl | hn := guardRange_eq_fault h
    · exact .inl (by constructor)
    · exact .inr ⟨_, rfl, hn⟩
  | seImm x nn | sneImm x nn | seReg x y | sneReg x y => exact .inr ⟨_, ⟨_, rfl⟩, h⟩
  | _ => exact .inr ⟨_, rfl, h⟩

/-- The pc is written by `SetPc` alone (40_step_and_dispatch.md R127). -/
@[simp] theorem pc_effect (i : Instr) (s : State) : (effect i s).pc = s.pc := by
  cases i <;> rfl

/-- A fault of an instruction reports the instruction's word and the pc, whatever its cause (R291). -/
theorem report_of_exec_eq_fault {i : Instr} {s : State} {f : Fault} (h : exec i s = .fault f) :
    f.op = encode i ∧ f.pc = s.pc := by
  obtain hown | ⟨n, -, hn⟩ := exec_eq_fault h
  · cases hown <;> exact ⟨rfl, rfl⟩
  · rw [← pc_effect i s]
    obtain ⟨-, rfl⟩ | ⟨-, -, rfl⟩ := setPc_eq_fault.mp hn <;> exact ⟨rfl, rfl⟩

/-! ## The obligations -/

/-- Settles O11: a rejected word is reported as fetched, and an executed one is the word its instruction encodes to. -/
theorem faultReportsTheFetchedWord : Obligations.FaultReportsTheFetchedWord := by
  intro s f h
  obtain ⟨-, -, ⟨r, -, rfl⟩ | ⟨i, hd, hx⟩⟩ := step_eq_fault.mp h
  · cases r <;> exact ⟨rfl, rfl⟩
  · obtain ⟨-, hword⟩ := encodeOfDecodeIsTheWord _ _ hd
    obtain ⟨hop, hpc⟩ := report_of_exec_eq_fault hx
    exact ⟨hop.trans hword, hpc⟩

/-- Settles O13: `OwnFault` is the table's part for the instruction's own faults; `SetPc` is never reached by `SYS`, and
finds a target odd only where a jump or `CALL` hands it one. -/
theorem eachFaultHasItsInstructions : Obligations.EachFaultHasItsInstructions := by
  intro i s f hs h
  obtain hown | ⟨n, htarget, hn⟩ := exec_eq_fault h
  · cases hown with
    | call nnn | sys nnn => exact ⟨nnn, rfl⟩
    | ret => rfl
    | drw x y n => exact .inl ⟨x, y, n, rfl⟩
    | ldB x => exact .inr ⟨x, .inl rfl⟩
    | ldMemVx x => exact .inr ⟨x, .inr (.inl rfl)⟩
    | ldVxMem x => exact .inr ⟨x, .inr (.inr rfl)⟩
    | skp x => exact ⟨x, .inl rfl⟩
    | sknp x => exact ⟨x, .inr rfl⟩
  · obtain ⟨-, rfl⟩ | ⟨-, hodd, rfl⟩ := setPc_eq_fault.mp hn
    · rintro nnn rfl
      exact htarget
    · exact (even_or_jump_of_setPcTarget hs htarget).resolve_left (by omega)

end Sys2Proof.Machine
end
